-- ==== Sys2Proof/Word.lean ====
section
/-! DEFINITION. The widths the spec gives data, and the numbering of a byte's bits. -/
namespace Sys2Proof

/-- A command word or a response word: 32 bits (R57, R65). -/
abbrev Word := BitVec 32

/-- One byte of the source buffer `MEM` (R11). -/
abbrev Byte := BitVec 8

/-- One raster cell's value, a palette index 0 to 3 (R12, R53; C4: never wider). -/
abbrev Pixel := BitVec 2

/-- The 24-bit operand field of a command word (R57). -/
abbrev Operand := BitVec 24

end Sys2Proof
end

