-- ==== Sys2Proof/Syntax.lean ====
section
/-! DEFINITION. The instructions (commands) of the opcode table, R59. -/
namespace Sys2Proof

/-- The three commands (R59), each with its 24-bit operand as it stands in the word: unsigned, never scaled or
sign-extended (R58). -/
inductive Instr where
  /-- `DECODE off`: start a decode of the photo block at byte offset `off` (R75). -/
  | decode (off : Operand)
  /-- `RDPIX k`: return raster cell `k` (R90). -/
  | rdpix (k : Operand)
  /-- `RDCR n`: return control register `n` (R91); only 0 to 3 are legal (R58). -/
  | rdcr (n : Operand)
deriving DecidableEq, Repr

end Sys2Proof
end

