-- ==== Sys2Proof/WellFormed.lean ====
section
/-! DEFINITION. Which instruction terms stand for a command word. -/
namespace Sys2Proof

/-- `DECODE` and `RDPIX` take any 24-bit operand (their range checks are value checks that fault, R59); `RDCR` takes
only the register numbers 0 to 3 (R58, R91). -/
def wellFormed : Instr → Bool
  | .decode _ => true
  | .rdpix _ => true
  | .rdcr n => decide (n.toNat < 4)

/-- The well-formed instructions, as a proposition. -/
abbrev WellFormed (i : Instr) : Prop := wellFormed i = true

end Sys2Proof
end

