-- ==== Sys2Proof/Decode.lean ====
section
/-! DEFINITION. The command decoder, written from the match and mask columns of R59, and the encoder, written from the
`op` and `imm` columns of the same table and the field layout of R57. -/
namespace Sys2Proof

/-- The mnemonics of the opcode table (R59). -/
inductive Mnemonic where
  | DECODE | RDPIX | RDCR
deriving DecidableEq, Repr

/-- One row of the opcode table: its match and mask words (R59). -/
structure OpcodeRow where
  mnemonic : Mnemonic
  pattern : Word
  mask : Word
deriving DecidableEq, Repr

/-- The opcode table (R59; `opcode_table.json`). -/
def opcodeTable : List OpcodeRow :=
  [ ⟨.DECODE, 0x01000000#32, 0xFF000000#32⟩,
    ⟨.RDPIX,  0x02000000#32, 0xFF000000#32⟩,
    ⟨.RDCR,   0x03000000#32, 0xFFFFFFFC#32⟩ ]

/-- "A word `cw` selects a row when `cw AND mask = match`" (R59). -/
def rowSelects (cw : Word) (r : OpcodeRow) : Bool := cw &&& r.mask == r.pattern

/-- `op`: bits [31:24] of a command word (R57). -/
def opField (cw : Word) : BitVec 8 := cw.extractLsb' 24 8

/-- `imm`: bits [23:0] of a command word (R57). -/
def immField (cw : Word) : Operand := cw.extractLsb' 0 24

/-- Why a word is illegal (R60). -/
inductive DecodeError where
  /-- `op` is 0x00 or 0x04 to 0xFF. -/
  | reservedOp (op : BitVec 8)
  /-- `op` is 0x03 and one of `imm` bits [23:2] is set. -/
  | rdcrOperand (imm : Operand)
deriving DecidableEq, Repr

/-- The instruction a row's mnemonic stands for, with the word's `imm` as its operand (R58). -/
def instrOf : Mnemonic → Operand → Instr
  | .DECODE, imm => .decode imm
  | .RDPIX, imm => .rdpix imm
  | .RDCR, imm => .rdcr imm

/-- Decode one command word by the table; a word that selects no row is rejected by name (R59, R60, R61). -/
def decodeWord (cw : Word) : Except DecodeError Instr :=
  match opcodeTable.find? (rowSelects cw) with
  | some r => .ok (instrOf r.mnemonic (immField cw))
  | none => if opField cw = 0x03#8 then .error (.rdcrOperand (immField cw)) else .error (.reservedOp (opField cw))

/-- The operation code of an instruction, the `op` column of R59. -/
def opcodeOf : Instr → BitVec 8
  | .decode _ => 0x01#8
  | .rdpix _ => 0x02#8
  | .rdcr _ => 0x03#8

/-- The operand of an instruction, the `imm` column of R59. -/
def operandOf : Instr → Operand
  | .decode off => off
  | .rdpix k => k
  | .rdcr n => n

/-- The command word of an instruction: `op` above `imm` (R57, R62: `op×2^24 + imm`). -/
def encode (i : Instr) : Word := opcodeOf i ++ operandOf i

/-- The command word whose low `nbits` bits are `w` and whose other bits are 0. A command is one 32-bit number with
bit 0 its least significant bit (R57), which is how the opcode table numbers its bits (log 10). -/
def tableWord (nbits w : Nat) : Word := BitVec.ofNat 32 (w % 2 ^ nbits)

/-- The instruction the decoder reads from an instruction whose bits are `w`, numbered as the opcode table numbers
them; none where it refuses. -/
def decodeTableWord (nbits w : Nat) : Option Instr :=
  match decodeWord (tableWord nbits w) with
  | .ok i => some i
  | .error _ => none

end Sys2Proof
end

