-- ==== Sys2Proof/Config.lean ====
section
/-! DEFINITION. What is fixed: the geometry constants of R2 and R3 (compile-time constants, R4), the range and
the reference value of the one parameter `BUF_LEN` (R5), and the free value for bytes the host has not loaded. -/
namespace Sys2Proof.Config

/-- `W`: raster width in pixels (R2). -/
@[simp] abbrev W : Nat := 128
/-- `H`: raster height in pixels (R2). -/
@[simp] abbrev H : Nat := 112
/-- `TS`: tile side in pixels (R2). -/
@[simp] abbrev TS : Nat := 8
/-- `TCOLS`: tiles per tile row (R2). -/
@[simp] abbrev TCOLS : Nat := 16
/-- `TROWS`: tile rows (R2). -/
@[simp] abbrev TROWS : Nat := 14
/-- `TILE_BYTES`: bytes per tile (R2). -/
@[simp] abbrev TILE_BYTES : Nat := 16
/-- `ROW_BYTES`: bytes per tile row, one row pair (R2). -/
@[simp] abbrev ROW_BYTES : Nat := 2
/-- `BPP`: bits per pixel (R2). -/
@[simp] abbrev BPP : Nat := 2
/-- `BLOCK_BYTES`: size of one photo block (R2). -/
@[simp] abbrev BLOCK_BYTES : Nat := 4096
/-- `NTILES` (R3). -/
@[simp] abbrev NTILES : Nat := 224
/-- `NPAIRS`: row pairs per raster (R3). -/
@[simp] abbrev NPAIRS : Nat := 1792
/-- `DATA_BYTES`: bytes the block reads (R3). -/
@[simp] abbrev DATA_BYTES : Nat := 3584
/-- `NPIX`: raster cells (R3). -/
@[simp] abbrev NPIX : Nat := 14336
/-- `TAIL_BYTES`: bytes of a photo block the decoder never reads (R3, C1). -/
@[simp] abbrev TAIL_BYTES : Nat := 512

/-- The largest `BUF_LEN`, `2^24` (R5). -/
@[simp] abbrev maxBufLen : Nat := 16777216

/-- The reference value of `BUF_LEN`, 128 KiB (R5). -/
@[simp] abbrev referenceBufLen : Nat := 131072

/-- FREE VALUE (log 2). `unloadedByte u a` is what the byte of `MEM` at address `a` reads as before the host first loads
it, in the power-up whose number is `u`: "its contents are unspecified" (R21), treatment "any value" (V2). Within one
power-up it is one value per address, because reading a byte any number of times returns the same value while the host
leaves it alone (R34). It has no body: no proof can see what it is. -/
opaque unloadedByte : Nat → Nat → Byte

end Sys2Proof.Config

namespace Sys2Proof

/-- The parameter `BUF_LEN`, `0 ≤ BUF_LEN ≤ 2^24` (R5). A larger buffer is "refused by construction" (D4, V6): no
value of this type stands for one. -/
abbrev BufLen := Fin (Config.maxBufLen + 1)

end Sys2Proof
end

