-- ==== Sys2Proof/Machine/State.lean ====
section
/-! DEFINITION. The state of the machine: the six components of R10, and beside them the host's side of the command
port (moves not yet made, whose turn it is, responses). Plain data throughout. -/
namespace Sys2Proof.Machine

open Sys2Proof

/-- `ST`, the state of the block (R14). -/
inductive St where
  /-- 0: no decode since reset. -/
  | idle
  /-- 1: a decode is in progress. -/
  | busy
  /-- 2: the last accepted decode finished and `RASTER` holds its result. -/
  | done
  /-- 3: a fault was recorded; no further work until reset. -/
  | fault
deriving DecidableEq, Repr

/-- `FC`, the fault code (R14, R100). The codes 6 to 15 "are never produced" and have no constructor. -/
inductive FaultCode where
  /-- 0: no fault since reset. -/
  | noFault
  /-- 1: `InputTooShort` (R101). -/
  | inputTooShort
  /-- 2: `IllegalCommand` (R102). -/
  | illegalCommand
  /-- 3: `NotReady` (R103). -/
  | notReady
  /-- 4: `BadIndex` (R104). -/
  | badIndex
  /-- 5: `Busy` (R105). -/
  | busy
deriving DecidableEq, Repr

/-- One move of the host (R128): a command, a reset, a `MEM` write; and the poll of `WAIT` (R63). -/
inductive HostMove where
  /-- Give the block one 32-bit command word, whatever it decodes to (R57, R64 `.word`). -/
  | command (cw : Word)
  /-- Assert reset (R120, R64 `.reset`). -/
  | reset
  /-- Write consecutive bytes of `MEM` from address `a` (R43, R64 `.mem` and `.fill`; log 11). -/
  | write (a : Nat) (bytes : List Byte)
  /-- `WAIT`: issue `RDCR 1`, and again until the response shows `ST ≠ BUSY` (R63; log 12). -/
  | poll
deriving DecidableEq, Repr

/-- The two agents that can move (R128). -/
inductive Agent where
  | block
  | host
deriving DecidableEq, Repr

/-- The state of one block (R10) and of its command port. -/
structure State where
  /-- `MEM` (R11): the bytes the host has loaded, addresses strictly rising. An address below `BUF_LEN` that is not
  listed holds a free value (log 2). -/
  mem : List Host.Cell
  /-- MODEL'S OWN (log 2): the number of this power-up, which names the unspecified bytes of `MEM`; nothing changes it. -/
  unloaded : Nat
  /-- `RASTER` (R12): the cells that hold a value, indices strictly rising. A cell that is not listed is `⊥`. -/
  raster : List (Nat × Pixel)
  /-- `OFFSET` = `CR[0]` (R13). -/
  offset : BitVec 24
  /-- `ST` = `CR[1]` bits [1:0] (R14). -/
  st : St
  /-- `FC` = `CR[1]` bits [7:4] (R14). -/
  fc : FaultCode
  /-- `SCAN` = `CR[2]` (R15). -/
  scan : BitVec 11
  /-- `BUFLEN` = `CR[3]` (R16), the parameter `BUF_LEN` (R5; log 1). -/
  bufLen : BufLen
  /-- MODEL'S OWN (log 3): the host moves not yet made, next first (R114: one total order). -/
  pending : List HostMove
  /-- MODEL'S OWN (log 4): who moves at each of the next points where both agents can (V3, R128). -/
  turns : List Agent
  /-- MODEL'S OWN (log 5): what each command taken so far returned (R65), newest first. -/
  responses : List (Option Word)
deriving DecidableEq, Repr

/-- Why the machine stops. The spec's own five faults are NOT here: they are next states (R108). -/
inductive Fault where
  /-- Raised by the block step when a byte it must read lies at or above `BUF_LEN`. Safe: R44 shows that no state a
  run reaches does so, and "the model needs no meaning for an out-of-range read" (log 7). -/
  | sourceReadOutOfRange (a : Nat)
  /-- Raised by the block step when `ST = BUSY` and `SCAN ≥ 1792`. Safe: "there is no state with `ST = BUSY` and
  `SCAN = 1792`" (R77), and 1793 to 2047 never occur (R15; log 7). -/
  | scanPastEnd
  /-- Raised by `RDPIX` in `DONE` for a cell that is `⊥`. Safe: "in `DONE` every cell has a value" (R90; log 7). -/
  | cellHasNoValue (k : Nat)
  /-- Raised by a host write to an address at or above `BUF_LEN`, which does not exist (R11, R30). Safe (log 8). -/
  | hostWriteOutOfRange (a : Nat)
deriving DecidableEq, Repr

/-- What has no meaning in the model. -/
inductive Refusal where
  /-- Raised by `exec` for an instruction that has no meaning yet. Safe. -/
  | notModelled (mnemonic : String)
  /-- Raised by a host write to `MEM` while `ST = BUSY`: "the model has no such move" (R43, U3). Unsafe: a host that
  breaks the rule gets a raster this model says nothing of (log 6). -/
  | sourceWriteWhileBusy
deriving DecidableEq, Repr

/-- Power-up with a buffer of `n` bytes (R121, R21): `IDLE`, no fault, `OFFSET` and `SCAN` 0, every cell `⊥`, nothing
loaded into `MEM`, no host move waiting. Two power-ups need not find the same bytes in `MEM`: `u` tells them apart
(log 2). -/
def State.powerUp (n : BufLen) (u : Nat := 0) : State where
  mem := []
  unloaded := u
  raster := []
  offset := 0
  st := .idle
  fc := .noFault
  scan := 0
  bufLen := n
  pending := []
  turns := []
  responses := []

/-- The machine right after reset, with the reference buffer of 131072 bytes (R5, R21; log 1). -/
def State.reset : State := State.powerUp 131072

end Sys2Proof.Machine
end

