-- ==== Sys2Proof/Machine/Flags.lean ====
section
/-! DEFINITION. The status word. The block has no condition codes (R17); its only status bits are `ST` and `FC`. -/
namespace Sys2Proof.Machine

open Sys2Proof

/-- The code of `ST` (R14). -/
def St.code : St → Nat
  | .idle => 0
  | .busy => 1
  | .done => 2
  | .fault => 3

/-- The code of `FC` (R14, R100). -/
def FaultCode.code : FaultCode → Nat
  | .noFault => 0
  | .inputTooShort => 1
  | .illegalCommand => 2
  | .notReady => 3
  | .badIndex => 4
  | .busy => 5

/-- `CR[1] = FC×16 + ST` (R91); the reserved bits [3:2] and [31:8] read 0 (R14). -/
def statusWord (st : St) (fc : FaultCode) : Word := BitVec.ofNat 32 (fc.code * 16 + st.code)

/-- The `ST` field `w[1:0]` of a status word shows `BUSY` (R14, R63). -/
def showsBusy (w : Word) : Bool := w.extractLsb' 0 2 == 1#2

end Sys2Proof.Machine
end

