-- ==== Sys2Proof/Machine/Operands.lean ====
section
/-! DEFINITION. Every operand and address form of the spec: positions in the tile grid, row pairs, raster indices,
source addresses, and the host's slot addresses. All arithmetic is exact on naturals (R31). -/
namespace Sys2Proof.Machine

open Sys2Proof Sys2Proof.Config

/-- `tileId` of row pair `n` (R56, R76). -/
def pairTileId (n : Nat) : Nat := n / TS

/-- `r` of row pair `n`: its row inside its tile (R56, R76). -/
def pairRow (n : Nat) : Nat := n % TS

/-- `tileRow` of a tile (R50, R76). -/
def tileRowOf (tileId : Nat) : Nat := tileId / TCOLS

/-- `tileCol` of a tile (R50, R76). -/
def tileColOf (tileId : Nat) : Nat := tileId % TCOLS

/-- The address of the plane-0 byte of row `r` of a tile: `off + tileId×16 + r×2` (R50, R51). -/
def rowAddr (off tileId r : Nat) : Nat := off + tileId * TILE_BYTES + r * ROW_BYTES

/-- The address of the plane-0 byte of row pair `n`, as R76 computes it. -/
def pairAddr (off n : Nat) : Nat := rowAddr off (pairTileId n) (pairRow n)

/-- The raster cell of a position in the tile grid: `k = (tileRow×8 + r)×128 + tileCol×8 + c` (R54). -/
def cellIndex (tileRow tileCol r c : Nat) : Nat := (tileRow * TS + r) * W + tileCol * TS + c

/-- `k0`: the first of the eight cells row pair `n` fills (R56). -/
def pairCell (n : Nat) : Nat := cellIndex (tileRowOf (pairTileId n)) (tileColOf (pairTileId n)) (pairRow n) 0

/-- The linear raster index of pixel (`x`, `y`): `k = y×128 + x` (R54). -/
def pixelIndex (x y : Nat) : Nat := y * W + x

/-- `y` of cell `k` (R55). -/
def cellY (k : Nat) : Nat := k / W

/-- `x` of cell `k` (R55). -/
def cellX (k : Nat) : Nat := k % W

/-- `tileId` of the tile cell `k` lies in (R55, R50). -/
def cellTileId (k : Nat) : Nat := cellY k / TS * TCOLS + cellX k / TS

/-- `r` of cell `k`: its row inside its tile (R55). -/
def cellRow (k : Nat) : Nat := cellY k % TS

/-- `c` of cell `k`: its column inside its tile (R55). -/
def cellCol (k : Nat) : Nat := cellX k % TS

/-- The row pair that fills cell `k`: `n = tileId×8 + r` (R56). -/
def cellPair (k : Nat) : Nat := cellTileId k * TS + cellRow k

/-- The address of the plane-0 byte cell `k` comes from (R55). -/
def cellAddr (off k : Nat) : Nat := rowAddr off (cellTileId k) (cellRow k)

/-- The photo offset of the host's slot `i`: `0x2000 + i×0x1000` (R36, R63). -/
def slotOffset (i : Nat) : Nat := 0x2000 + i * 0x1000

/-- The address of the deletion flag of slot `i` in the host's map (R36); the block reads no such byte (R35). -/
def deletionFlagAddr (i : Nat) : Nat := 0x11D7 + i

/-- The bounds check of R75: does the whole 4096-byte photo block lie inside the buffer? The sum is exact. -/
def blockFits (off : Operand) (n : BufLen) : Bool := decide (off.toNat + BLOCK_BYTES ≤ n.val)

end Sys2Proof.Machine
end

