-- ==== Sys2Proof/Machine/Store.lean ====
section
/-! DEFINITION. Sparse stores: lists of (key, value) pairs with keys strictly rising. `MEM` and `RASTER` are both kept
so, which makes equal contents equal data. -/
namespace Sys2Proof.Machine

/-- The canonical form: keys strictly rising, hence no repeats. -/
abbrev storeWf {α : Type} (l : List (Nat × α)) : Prop := (l.map Prod.fst).Pairwise (· < ·)

/-- The value listed at key `k`, if there is one. -/
def storeGet {α : Type} : List (Nat × α) → Nat → Option α
  | [], _ => none
  | (j, v) :: l, k => if j = k then some v else storeGet l k

/-- List `v` at key `k`, in order, in place of what was listed there. -/
def storeSet {α : Type} : List (Nat × α) → Nat → α → List (Nat × α)
  | [], k, v => [(k, v)]
  | (j, u) :: l, k, v =>
    if k < j then (k, v) :: (j, u) :: l
    else if k = j then (k, v) :: l
    else (j, u) :: storeSet l k v

/-- List consecutive values from key `k` on. -/
def storeSetFrom {α : Type} : List (Nat × α) → Nat → List α → List (Nat × α)
  | l, _, [] => l
  | l, k, v :: vs => storeSetFrom (storeSet l k v) (k + 1) vs

/-- `MEM`'s canonical form. -/
abbrev Memory.wf (m : List Host.Cell) : Prop := storeWf m

end Sys2Proof.Machine
end

