-- ==== Sys2Proof/Machine/Raster.lean ====
section
/-! DEFINITION. The function layer: `PixVal`, `RowDecode`, `TileDecode`, `RasterDecode` (R70 to R74), and the writing
of one row pair's eight cells (R76). -/
namespace Sys2Proof.Machine

open Sys2Proof Sys2Proof.Config

/-- `bit(b, i)`, bit 7 the most significant (R7). -/
def bit (b : Byte) (i : Nat) : Bool := b.getLsbD i

/-- `PixVal(bit0, bit1) = bit1×2 + bit0` (R70, R53). -/
def pixVal (bit0 bit1 : Bool) : Pixel := BitVec.ofNat 2 (bit1.toNat * 2 + bit0.toNat)

/-- The pixel of tile column `c` of a row pair: `b0` is plane 0, `b1` plane 1, column 0 is bit 7 (R52, R71). -/
def rowPixel (b0 b1 : Byte) (c : Nat) : Pixel := pixVal (bit b0 (7 - c)) (bit b1 (7 - c))

/-- `RowDecode(b0, b1)`: the 8 pixels of a row, tile column 0 first (R71). -/
def rowDecode (b0 b1 : Byte) : List Pixel := (List.range TS).map (rowPixel b0 b1)

/-- `TileDecode(t)`: the 8 rows of a tile of 16 bytes, top row first (R72). -/
def tileDecode (t : Vector Byte TILE_BYTES) : List (List Pixel) :=
  (List.finRange TS).map fun (r : Fin TS) =>
    have h : r.val < 8 := r.isLt
    rowDecode (t[2 * r.val]'(show _ < 16 by omega)) (t[2 * r.val + 1]'(show _ < 16 by omega))

/-- `RasterDecode(M, off)[k]`, by the direct form of R73 (R55). -/
def rasterPixel (M : Nat → Byte) (off k : Nat) : Pixel :=
  rowPixel (M (cellAddr off k)) (M (cellAddr off k + 1)) (cellCol k)

/-- `RasterDecode(M, off)`: the 14336 pixels in row-major order (R73). -/
def rasterDecode (M : Nat → Byte) (off : Nat) : List Pixel := (List.range NPIX).map (rasterPixel M off)

/-- Write the eight cells of row pair `n`, decoded from its two bytes (R76, R56). -/
def writePair (raster : List (Nat × Pixel)) (n : Nat) (b0 b1 : Byte) : List (Nat × Pixel) :=
  storeSetFrom raster (pairCell n) (rowDecode b0 b1)

end Sys2Proof.Machine
end

