-- ==== Sys2Proof/Machine/Ops.lean ====
section
/-! DEFINITION. The named operations over the state: responses, reading `MEM`, `RASTER` and `CR`, taking a fault
(`raise`) and the reset that is the only return from one, accepting a decode, and the host's writes to `MEM`. -/
namespace Sys2Proof.Machine

open Sys2Proof Sys2Proof.Config

/-- A command returns `resp` to the host, `none` or a word (R65). A command that is ignored does exactly
`respond none` (R109). -/
def State.respond (s : State) (resp : Option Word) : State := { s with responses := resp :: s.responses }

/-- `raise F` (R108): `FC <- c`, `ST <- FAULT`, `resp = none`, and nothing else. The one operation that takes a
fault. -/
def State.raise (s : State) (f : FaultCode) : State := { s with fc := f, st := .fault }.respond none

/-- The effect of reset (R120, R21): every component but `MEM` and `BUFLEN`. It is the only return from `FAULT`
(R110). The host's own moves and the responses it has had are not the block's and stay. -/
def State.applyReset (s : State) : State :=
  { s with st := .idle, fc := .noFault, offset := 0, scan := 0, raster := [] }

/-- What the byte of `MEM` at address `a` holds: what the host loaded, else a free value of the address (V2;
log 2). -/
def State.byteAt (s : State) (a : Nat) : Byte := (storeGet s.mem a).getD (unloadedByte s.unloaded a)

/-- `MemRead(a, 1)` (R34): the byte at `a`, if the address exists (R11). -/
def State.memRead (s : State) (a : Nat) : Option Byte := if a < s.bufLen.val then some (s.byteAt a) else none

/-- `RASTER[k]`: a value, or none for `⊥` (R12). -/
def State.cell (s : State) (k : Nat) : Option Pixel := storeGet s.raster k

/-- `CR[n]` as a 32-bit word (R91, R13 to R16); none where there is no such register. -/
def State.readCR (s : State) (n : Operand) : Option Word :=
  if n = 0 then some (s.offset.setWidth 32)
  else if n = 1 then some (statusWord s.st s.fc)
  else if n = 2 then some (s.scan.setWidth 32)
  else if n = 3 then some (BitVec.ofNat 32 s.bufLen.val)
  else none

/-- An illegal command (R60): `IllegalCommand` (R102), but ignored in `FAULT` (R109). -/
def State.takeIllegal (s : State) : State :=
  match s.st with
  | .fault => s.respond none
  | _ => s.raise .illegalCommand

/-- The acceptance of `DECODE off` (R75): the previous raster is gone at once (R127). -/
def State.acceptDecode (s : State) (off : Operand) : State :=
  { s with offset := off, scan := 0, raster := [], st := .busy }.respond none

/-- The state after row pair `n` is decoded from its two bytes (R76): eight cells, `SCAN <- n + 1`, and `ST <- DONE`
in the step that writes the last eight (R77, R39). -/
def State.finishPair (s : State) (n : Nat) (b0 b1 : Byte) : State :=
  { s with
    raster := writePair s.raster n b0 b1
    scan := BitVec.ofNat 11 (n + 1)
    st := if n + 1 = NPAIRS then .done else s.st }

/-- The host writes consecutive bytes of `MEM` from `a` (R43). While `ST = BUSY` there is no such move (U3; log 6);
an address at or above `BUF_LEN` does not exist (log 8). -/
def State.hostWrite (s : State) (a : Nat) (bytes : List Byte) : Host.Outcome State Fault Refusal :=
  match s.st with
  | .busy => .refused .sourceWriteWhileBusy
  | _ =>
    if bytes = [] ∨ a + bytes.length ≤ s.bufLen.val then .next { s with mem := storeSetFrom s.mem a bytes }
    else .fault (.hostWriteOutOfRange (max a s.bufLen.val))

end Sys2Proof.Machine
end

