-- ==== Sys2Proof/Machine/DecodeFamily.lean ====
section
/-! DEFINITION. The decode family: the command `DECODE` (R75) and the block step that does its work (R76, R77). -/
namespace Sys2Proof.Machine

open Sys2Proof Sys2Proof.Config

/-- `DECODE off` (R75): the checks in the order of R107, then the acceptance. -/
def execDecode (off : Operand) (s : State) : Host.Outcome State Fault Refusal :=
  match s.st with
  | .fault => .next (s.respond none)
  | .busy => .next (s.raise .busy)
  | .idle | .done => if blockFits off s.bufLen then .next (s.acceptDecode off) else .next (s.raise .inputTooShort)

/-- The internal step of the block while `ST = BUSY` (R76): decode row pair `n = SCAN`. The two faults are for states
no run reaches (R44, R77; log 7). -/
def blockStep (s : State) : Host.Outcome State Fault Refusal :=
  if s.scan.toNat < NPAIRS then
    match s.memRead (pairAddr s.offset.toNat s.scan.toNat),
        s.memRead (pairAddr s.offset.toNat s.scan.toNat + 1) with
    | some b0, some b1 => .next (s.finishPair s.scan.toNat b0 b1)
    | _, _ => .fault (.sourceReadOutOfRange (pairAddr s.offset.toNat s.scan.toNat))
  else .fault .scanPastEnd

end Sys2Proof.Machine
end

