-- ==== Sys2Proof/Machine/Readout.lean ====
section
/-! DEFINITION. The read-out family: `RDPIX` (R90) and `RDCR` (R91). -/
namespace Sys2Proof.Machine

open Sys2Proof Sys2Proof.Config

/-- `RDPIX k` (R90): the state check comes before the operand check (R107). The model's own fault is for a state no
run reaches (R19; log 7). -/
def execRdpix (k : Operand) (s : State) : Host.Outcome State Fault Refusal :=
  match s.st with
  | .fault => .next (s.respond none)
  | .idle | .busy => .next (s.raise .notReady)
  | .done =>
    if NPIX ≤ k.toNat then .next (s.raise .badIndex)
    else
      match s.cell k.toNat with
      | some v => .next (s.respond (some (v.setWidth 32)))
      | none => .fault (.cellHasNoValue k.toNat)

/-- `RDCR n` (R91): served in every state, writes nothing, never faults. A number above 3 is not `RDCR` but an
illegal command (R91, R60; no decoded word gives one, log 16). -/
def execRdcr (n : Operand) (s : State) : Host.Outcome State Fault Refusal :=
  match s.readCR n with
  | some w => .next (s.respond (some w))
  | none => .next s.takeIllegal

end Sys2Proof.Machine
end

