-- ==== Sys2Proof/Machine/Dispatch.lean ====
section
/-! DEFINITION. One arm per instruction, each one direct call of its meaning. -/
namespace Sys2Proof.Machine

open Sys2Proof

def exec (i : Instr) (s : State) : Host.Outcome State Fault Refusal :=
  match i with
  | .decode off => Sys2Proof.Machine.execDecode off s
  | .rdpix k => Sys2Proof.Machine.execRdpix k s
  | .rdcr n => Sys2Proof.Machine.execRdcr n s

end Sys2Proof.Machine
end

