-- ==== Sys2Proof/Machine/Port.lean ====
section
/-! DEFINITION. The command port and the interleaving: how a command word is taken, what each host move does, and
which agent moves next. -/
namespace Sys2Proof.Machine

open Sys2Proof

/-- Take one command word: decode it in every state by the same table (R61) and run it; a word of no row is an illegal
command (R60). -/
def takeCommand (cw : Word) (s : State) : Host.Outcome State Fault Refusal :=
  match decodeWord cw with
  | .ok i => exec i s
  | .error _ => .next s.takeIllegal

/-- The word of `RDCR 1`, which `RDSTAT` and `WAIT` issue (R63). -/
def statusCommand : Word := encode (.rdcr 1)

/-- Does the last response show `ST = BUSY`? Then `WAIT` issues its command again (R63). -/
def pollAgain (responses : List (Option Word)) : Bool :=
  match responses with
  | some w :: _ => showsBusy w
  | _ => false

/-- One poll of `WAIT` (R63): take `RDCR 1`; while the response shows `BUSY` the poll stays the host's next move. -/
def takePoll (s : State) : Host.Outcome State Fault Refusal :=
  match takeCommand statusCommand s with
  | .next t => .next (if pollAgain t.responses then { t with pending := .poll :: t.pending } else t)
  | .fault f => .fault f
  | .refused r => .refused r

/-- One host move, an indivisible transition (R114, R120, R128). -/
def takeMove (m : HostMove) (s : State) : Host.Outcome State Fault Refusal :=
  match m with
  | .command cw => takeCommand cw s
  | .reset => .next s.applyReset
  | .write a bytes => s.hostWrite a bytes
  | .poll => takePoll s

/-- One transition while `ST = BUSY` (R128, V3). With a host move waiting both agents can move and `turns` says which;
once `turns` is used up the block moves, so it is never starved (the fairness of R128; log 4). -/
def busyTransition (s : State) : Host.Outcome State Fault Refusal :=
  match s.pending, s.turns with
  | [], _ => blockStep s
  | _ :: _, [] => blockStep s
  | _ :: _, .block :: ts => blockStep { s with turns := ts }
  | m :: ms, .host :: ts => takeMove m { s with pending := ms, turns := ts }

/-- One transition while `ST ≠ BUSY`: the block takes no step, the host makes its next move; with none the block
"simply does nothing until a command or reset arrives" (R113; log 9). -/
def quietTransition (s : State) : Host.Outcome State Fault Refusal :=
  match s.pending with
  | [] => .next s
  | m :: ms => takeMove m { s with pending := ms }

/-- One transition of a run (R128). -/
def transition (s : State) : Host.Outcome State Fault Refusal :=
  match s.st with
  | .busy => busyTransition s
  | _ => quietTransition s

/-- Give the machine a command word as the host's very next move; while `ST = BUSY` that takes a turn of the host's
too (log 10). -/
def State.giveCommand (s : State) (cw : Word) : State :=
  { s with
    pending := .command cw :: s.pending
    turns := match s.st with
      | .busy => .host :: s.turns
      | _ => s.turns }

end Sys2Proof.Machine
end

