-- ==== Sys2Proof/Machine/Step.lean ====
section
/-! DEFINITION. The step of the machine: one transition of a run (R128). -/
namespace Sys2Proof.Machine

open Sys2Proof

/-- One step: a block step or a host move, whichever is next (R128). -/
def step (s : State) : Host.Outcome State Fault Refusal := transition s

/-- `s` with the instruction whose bits are `w` as the host's very next move. The block fetches no instructions: the
host gives it one command word at a time (R41; log 10). -/
def State.withFetchWord (s : State) (nbits w : Nat) : State := s.giveCommand (tableWord nbits w)

end Sys2Proof.Machine
end

