-- ==== Sys2Proof/Machine/Assembler.lean ====
section
/-! DEFINITION. The assembler for host programs (R62 to R64): lines, pseudo-commands and directives, what they assemble
to, how a program is loaded, and the judging of `.expect` annotations. -/
namespace Sys2Proof.Machine

open Sys2Proof Sys2Proof.Config

/-- One line of a host program (R62): a command, a pseudo-command (R63) or a directive (R64). -/
inductive Line where
  /-- Nothing but blanks or a comment: legal anywhere, no move (DESIGN CHOICE, log 14). -/
  | blank
  | decode (off : Nat)
  | rdpix (k : Nat)
  | rdcr (n : Nat)
  | decodeSlot (i : Nat)
  | rdxy (x y : Nat)
  | rdstat
  | wait
  /-- `.buflen N` -/
  | bufLen (n : Nat)
  /-- `.mem a: b0 b1 ...` -/
  | mem (a : Nat) (bytes : List Nat)
  /-- `.fill a, len, b` -/
  | fill (a len b : Nat)
  /-- `.reset` -/
  | reset
  /-- `.word w` -/
  | word (w : Nat)
  /-- `.expect v`, `v` a word or `none` -/
  | expect (v : Option Nat)
deriving DecidableEq, Repr

/-- "The assembler refuses an operand outside those ranges" (R62, R63; R5 for `.buflen`; a byte is below 256, a word
below 2^32). -/
def Line.inRange : Line → Bool
  | .blank | .rdstat | .wait | .reset | .expect none => true
  | .decode off => decide (off < 2 ^ 24)
  | .rdpix k => decide (k < 2 ^ 24)
  | .rdcr n => decide (n ≤ 3)
  | .decodeSlot i => decide (i ≤ 29)
  | .rdxy x y => decide (x ≤ 127 ∧ y ≤ 111)
  | .bufLen n => decide (n ≤ maxBufLen)
  | .mem _ bytes => bytes.all fun b => decide (b < 256)
  | .fill _ _ b => decide (b < 256)
  | .word w => decide (w < 2 ^ 32)
  | .expect (some v) => decide (v < 2 ^ 32)

/-- The word a command line assembles to, `op×2^24 + imm` (R62). -/
def commandWord (op imm : Nat) : Word := BitVec.ofNat 32 (op * 2 ^ 24 + imm)

/-- The host moves a line assembles to (R62 to R64). `.buflen` is configuration and `.expect` an annotation: neither
makes a move. -/
def Line.moves : Line → List HostMove
  | .blank | .bufLen _ | .expect _ => []
  | .decode off => [.command (commandWord 0x01 off)]
  | .rdpix k => [.command (commandWord 0x02 k)]
  | .rdcr n => [.command (commandWord 0x03 n)]
  | .decodeSlot i => [.command (commandWord 0x01 (slotOffset i))]
  | .rdxy x y => [.command (commandWord 0x02 (pixelIndex x y))]
  | .rdstat => [.command (commandWord 0x03 1)]
  | .wait => [.poll]
  | .mem a bytes => [.write a (bytes.map (BitVec.ofNat 8))]
  | .fill a len b => [.write a (List.replicate len (BitVec.ofNat 8 b))]
  | .reset => [.reset]
  | .word w => [.command (BitVec.ofNat 32 w)]

/-- Why the assembler refuses a program. -/
inductive AsmError where
  /-- The text of line `n` (from 1) is no line of the language (R62). -/
  | badSyntax (n : Nat)
  /-- An operand is outside its range (R62, R63). -/
  | operandOutOfRange (l : Line)
  /-- `.buflen` stands anywhere but first, or twice (R64). -/
  | bufLenNotFirst
deriving DecidableEq, Repr

/-- An assembled program: the buffer length it is configured with, and the host's moves in order. -/
structure Program where
  bufLen : BufLen
  moves : List HostMove
deriving DecidableEq, Repr

/-- The moves of the lines after any `.buflen`, each line checked. -/
def assembleLines : List Line → Except AsmError (List HostMove)
  | [] => .ok []
  | .bufLen _ :: _ => .error .bufLenNotFirst
  | l :: ls =>
    if l.inRange then
      match assembleLines ls with
      | .ok ms => .ok (l.moves ++ ms)
      | .error e => .error e
    else .error (.operandOutOfRange l)

/-- Assemble a program: `.buflen` "at most once, before anything else" (R64); without one `BUF_LEN` has its reference
value (R5; log 15). -/
def assemble : List Line → Except AsmError Program
  | .blank :: ls => assemble ls
  | .bufLen n :: ls =>
    if h : n < maxBufLen + 1 then
      match assembleLines ls with
      | .ok ms => .ok ⟨⟨n, h⟩, ms⟩
      | .error e => .error e
    else .error (.operandOutOfRange (.bufLen n))
  | ls =>
    match assembleLines ls with
    | .ok ms => .ok ⟨⟨referenceBufLen, by decide⟩, ms⟩
    | .error e => .error e

/-- The machine at power-up (R121) with a program's moves waiting and a schedule for the points where both agents can
move (R128): how a program comes to run (log 3). -/
def State.load (p : Program) (turns : List Agent) (u : Nat := 0) : State :=
  { State.powerUp p.bufLen u with pending := p.moves, turns := turns }

/-- Judge the `.expect` annotations of a program's lines against the responses of its finished run, oldest first: each
is about "the response of the preceding command" (R64), which for `WAIT` is the one that ended it (log 18). -/
def expectsMet : List Line → List (Option Word) → Option (Option Word) → Bool
  | [], _, _ => true
  | .expect v :: ls, log, last => last == some (v.map (BitVec.ofNat 32)) && expectsMet ls log last
  | .wait :: ls, log, _ =>
    match log.dropWhile (fun r => pollAgain [r]) with
    | r :: log' => expectsMet ls log' (some r)
    | [] => false
  | l :: ls, log, last =>
    match l.moves, log with
    | .command _ :: _, r :: log' => expectsMet ls log' (some r)
    | .command _ :: _, [] => false
    | _, _ => expectsMet ls log last

/-- Close the word being read, if there is one. -/
def flushWord (cur : List Char) : List (List Char) := if cur = [] then [] else [cur.reverse]

/-- The tokens of a line: words, and the marks `,` and `:`. A comment runs from `;` to the end of the line (R62). The
second argument is the word being read, last character first. -/
def tokens : List Char → List Char → List (List Char)
  | [], cur => flushWord cur
  | c :: cs, cur =>
    if c = ';' then flushWord cur
    else if c = ' ' ∨ c = '\t' ∨ c = '\r' then flushWord cur ++ tokens cs []
    else if c = ',' ∨ c = ':' then flushWord cur ++ [c] :: tokens cs []
    else tokens cs (c :: cur)

/-- The digits in the order of their values. A hexadecimal digit may be of either case (log 14). -/
def digitRows : List (List Char) := ["0123456789ABCDEF".toList, "0123456789abcdef".toList]

/-- The value of a digit in a base: its place among the first `base` digits of either row. -/
def digitValue (base : Nat) (d : Char) : Option Nat :=
  digitRows.findSome? fun row => (row.take base).idxOf? d

/-- The natural a word of digits spells in a base, most significant digit first (R62). -/
def spelled (base : Nat) (ds : List Char) : Option Nat :=
  ds.foldl (fun high d => high.bind fun h => (digitValue base d).map (h * base + ·)) (some 0)

/-- An operand: a decimal or `0x` hexadecimal natural (R62). -/
def number : List Char → Option Nat
  | [] => none
  | ['0', 'x'] => none
  | '0' :: 'x' :: cs => spelled 16 cs
  | cs => spelled 10 cs

/-- One byte of a `.mem` list: one or two hexadecimal digits without prefix (`95_test_vectors.md`, notation; log 14). -/
def hexByte (cs : List Char) : Option Nat :=
  if cs.length = 1 ∨ cs.length = 2 then spelled 16 cs else none

/-- The bytes of a `.mem` list. -/
def hexBytes : List (List Char) → Option (List Nat)
  | [] => some []
  | t :: ts =>
    match hexByte t, hexBytes ts with
    | some b, some bs => some (b :: bs)
    | _, _ => none

/-- Read the tokens of one line (R62 to R64). Mnemonics are upper case. DESIGN CHOICES where the rules are silent (log 14):
a blank or comment-only line is legal anywhere and makes no move, and a `.mem a:` with no byte after the colon is a write
of no bytes. -/
def parseTokens : List (List Char) → Option Line
  | [] => some .blank
  | [t] =>
    if t = "RDSTAT".toList then some .rdstat
    else if t = "WAIT".toList then some .wait
    else if t = ".reset".toList then some .reset
    else none
  | [t, v] =>
    if t = ".expect".toList then
      if v = "none".toList then some (.expect none) else (number v).map fun w => .expect (some w)
    else if t = "DECODE".toList then (number v).map .decode
    else if t = "RDPIX".toList then (number v).map .rdpix
    else if t = "RDCR".toList then (number v).map .rdcr
    else if t = "DECODESLOT".toList then (number v).map .decodeSlot
    else if t = ".buflen".toList then (number v).map .bufLen
    else if t = ".word".toList then (number v).map .word
    else none
  | t :: a :: m :: rest =>
    if t = ".mem".toList ∧ m = [':'] then
      match number a, hexBytes rest with
      | some a, some bs => some (.mem a bs)
      | _, _ => none
    else if t = "RDXY".toList ∧ m = [','] then
      match rest with
      | [y] =>
        match number a, number y with
        | some x, some y => some (.rdxy x y)
        | _, _ => none
      | _ => none
    else if t = ".fill".toList ∧ m = [','] then
      match rest with
      | [len, m2, b] =>
        if m2 = [','] then
          match number a, number len, number b with
          | some a, some len, some b => some (.fill a len b)
          | _, _, _ => none
        else none
      | _ => none
    else none

/-- The lines of a text. The second argument is the line being read, last character first. -/
def textLines : List Char → List Char → List (List Char)
  | [], cur => [cur.reverse]
  | c :: cs, cur => if c = '\n' then cur.reverse :: textLines cs [] else textLines cs (c :: cur)

/-- Read the lines of a program; `n` is the number of the first. -/
def parseLines : List (List Char) → Nat → Except AsmError (List Line)
  | [], _ => .ok []
  | t :: ts, n =>
    match parseTokens (tokens t []), parseLines ts (n + 1) with
    | none, _ => .error (.badSyntax n)
    | some _, .error e => .error e
    | some l, .ok ls => .ok (l :: ls)

/-- Assemble a program's text (R62 to R64). -/
def assembleText (text : List Char) : Except AsmError Program :=
  match parseLines (textLines text []) 1 with
  | .ok ls => assemble ls
  | .error e => .error e

end Sys2Proof.Machine
end

