-- ==== Sys2Proof/Safety.lean ====
section
/-! DEFINITION. What the statements speak of: the invariants of R19, agreement of `RASTER` with the source, the state
graph of R14, which transition comes next (R128), the end of a run (R129) and the bound on its length. -/
namespace Sys2Proof.Machine

open Sys2Proof Sys2Proof.Config

/-- The invariants of R19 (its item 4 on the values of the cells is `RasterAgrees`), with the canonical form of the two
stores and the ranges of their keys (R30). -/
structure Inv (s : State) : Prop where
  memWf : storeWf s.mem
  memInRange : ∀ e ∈ s.mem, e.1 < s.bufLen.val
  rasterWf : storeWf s.raster
  rasterInRange : ∀ e ∈ s.raster, e.1 < NPIX
  /-- R19 item 1. -/
  faultCode : s.fc = .noFault ↔ s.st ≠ .fault
  /-- R19 item 2. -/
  idle : s.st = .idle → s.scan = 0 ∧ s.offset = 0 ∧ ∀ k, s.cell k = none
  /-- R19 item 3. -/
  busy : s.st = .busy → s.scan.toNat ≤ 1791 ∧ s.offset.toNat + BLOCK_BYTES ≤ s.bufLen.val ∧
    ∀ k < NPIX, (s.cell k).isSome ↔ cellPair k < s.scan.toNat
  /-- R19 item 4. -/
  done : s.st = .done → s.scan.toNat = NPAIRS ∧ s.offset.toNat + BLOCK_BYTES ≤ s.bufLen.val ∧
    ∀ k < NPIX, (s.cell k).isSome
  /-- R19 item 5. -/
  scanBound : s.scan.toNat ≤ NPAIRS

/-- Every cell that holds a value, in `BUSY` or `DONE`, holds the value `RasterDecode` gives it for the present source
and `OFFSET` (R19 item 4, for a source not changed since the decode was accepted). -/
def RasterAgrees (s : State) : Prop :=
  s.st = .busy ∨ s.st = .done → ∀ k v, s.cell k = some v → v = rasterPixel s.byteAt s.offset.toNat k

/-- The pixel of column `c` of a row pair, in the spec's own arithmetic: `2×bit(b1, 7−c) + bit(b0, 7−c)` with
`bit(b, i) = (b div 2^i) mod 2` (R7, R71). -/
abbrev planePixel (b0 b1 : Byte) (c : Nat) : Nat := 2 * (b1.toNat / 2 ^ (7 - c) % 2) + b0.toNat / 2 ^ (7 - c) % 2

/-- The illegal command words as R60 lists them: `op` 0x00, `op` 0x04 to 0xFF, `op` 0x03 with any of `imm` bits [23:2]
set. -/
abbrev IllegalWord (cw : Word) : Prop :=
  cw.extractLsb' 24 8 = 0#8 ∨ 4#8 ≤ cw.extractLsb' 24 8 ∨ cw.extractLsb' 24 8 = 3#8 ∧ cw.extractLsb' 2 22 ≠ 0#22

/-- A `DECODE off` is about to be accepted (R75): it is the host's next move, `ST` is `IDLE` or `DONE`, and the block
fits. -/
def State.acceptsNext (s : State) (off : Operand) : Prop :=
  (s.st = .idle ∨ s.st = .done) ∧ off.toNat + BLOCK_BYTES ≤ s.bufLen.val ∧
    ∃ cw ms, s.pending = .command cw :: ms ∧ decodeWord cw = .ok (.decode off)

/-- The arrows of the state graph of R14, a state standing still among them. -/
def stEdge : St → St → Bool
  | _, .idle => true
  | .idle, .busy => true
  | .done, .busy => true
  | .busy, .busy => true
  | .busy, .done => true
  | .done, .done => true
  | _, .fault => true
  | _, _ => false

/-- A host write is about to be made: it is the next host move and no block step comes before it. -/
def State.writesNext (s : State) : Prop :=
  ∃ a bytes ms, s.pending = .write a bytes :: ms ∧ (s.st = .busy → ∃ ts, s.turns = .host :: ts)

/-- A reset is about to be applied. -/
def State.resetsNext (s : State) : Prop :=
  ∃ ms, s.pending = .reset :: ms ∧ (s.st = .busy → ∃ ts, s.turns = .host :: ts)

/-- A block step is about to be taken: `ST = BUSY`, and the host has no move left or the turn is not its own (R128;
logs 3 and 4). -/
def State.blockNext (s : State) : Prop :=
  s.st = .busy ∧ (s.pending = [] ∨ s.turns = [] ∨ ∃ ts, s.turns = .block :: ts)

/-- The run has ended: every move has been made and `ST ≠ BUSY` (R129). -/
def State.ended (s : State) : Prop := s.pending = [] ∧ s.st ≠ .busy

/-- Block steps left in the decode in progress (R80). -/
def State.stepsLeft (s : State) : Nat :=
  match s.st with
  | .busy => NPAIRS - s.scan.toNat
  | _ => 0

/-- A bound on the transitions a run can still take before it has ended: each host move may start one decode of 1792
steps, and each turn may go to a poll (R80, R128). -/
def State.runBound (s : State) : Nat := 1793 * s.pending.length + s.turns.length + s.stepsLeft

/-- `n` steps of the machine, stopping at the first fault or refusal. -/
def runFor (n : Nat) (s : State) : Host.Outcome State Fault Refusal := Host.Core.run core n s

end Sys2Proof.Machine
end

