-- ==== Sys2Proof/Certificates/Slice0/Obligations.lean ====
section
/-! DEFINITION. The statements for the provers. Each docstring says which rule or section of the spec it formalises. -/

open Sys2Proof Sys2Proof.Machine Sys2Proof.Config

/-! ## Encoding (30_encoding.md Part B) -/

/-- R57, R58, R59: decoding the word of a well-formed instruction gives it back, whatever its operand. -/
def Obligations.EncodeThenDecode : Prop :=
  ∀ i : Instr, WellFormed i → decodeWord (encode i) = .ok i

/-- R57, R59: a word that decodes is the word of its instruction, and the instruction is well-formed: no two words
mean the same, and no bit of a word is dropped. -/
def Obligations.DecodeThenEncode : Prop :=
  ∀ (cw : Word) (i : Instr), decodeWord cw = .ok i → encode i = cw ∧ WellFormed i

/-- R59: the three rows with their match and mask words, what each selects, and that a word matches at most one. -/
def Obligations.OpcodeMapRows : Prop :=
  (∀ cw : Word, cw &&& 0xFF000000#32 = 0x01000000#32 → decodeWord cw = .ok (.decode (cw.extractLsb' 0 24))) ∧
  (∀ cw : Word, cw &&& 0xFF000000#32 = 0x02000000#32 → decodeWord cw = .ok (.rdpix (cw.extractLsb' 0 24))) ∧
  (∀ cw : Word, cw &&& 0xFFFFFFFC#32 = 0x03000000#32 → decodeWord cw = .ok (.rdcr (cw.extractLsb' 0 24))) ∧
  (∀ (cw : Word) (i : Instr), decodeWord cw = .ok i → ∃ r ∈ opcodeTable, cw &&& r.mask = r.pattern) ∧
  (∀ cw : Word, ∀ r₁ ∈ opcodeTable, ∀ r₂ ∈ opcodeTable,
    cw &&& r₁.mask = r₁.pattern → cw &&& r₂.mask = r₂.pattern → r₁ = r₂)

/-- R60: the words that match no row are exactly those listed, and each raises `IllegalCommand` unless the block is
already in `FAULT`, where it is ignored. -/
def Obligations.IllegalWordsFault : Prop :=
  (∀ cw : Word, (∃ e, decodeWord cw = .error e) ↔ IllegalWord cw) ∧
  (∀ (cw : Word) (s : State), IllegalWord cw → s.st ≠ .fault →
    takeCommand cw s = .next { s with fc := .illegalCommand, st := .fault, responses := none :: s.responses }) ∧
  (∀ (cw : Word) (s : State), IllegalWord cw → s.st = .fault →
    takeCommand cw s = .next { s with responses := none :: s.responses })

/-- Words of 95_test_vectors.md V4 to V6, one or more of each command and of the illegal ones. -/
def Obligations.VectorWordsDecode : Prop :=
  decodeWord 0x0101F001#32 = .ok (.decode 0x1F001#24) ∧
  decodeWord 0x020037FF#32 = .ok (.rdpix 14335#24) ∧
  decodeWord 0x03000003#32 = .ok (.rdcr 3#24) ∧
  decodeWord 0x03000004#32 = .error (.rdcrOperand 4#24) ∧
  decodeWord 0x04000000#32 = .error (.reservedOp 4#8) ∧
  decodeWord 0#32 = .error (.reservedOp 0#8)

/-! ## The function layer (30_encoding.md Part A, 40_decode.md Part A) -/

/-- R70: `PixVal(bit0, bit1) = bit1×2 + bit0`, one of 0 to 3. -/
def Obligations.PixValFormula : Prop :=
  ∀ bit0 bit1 : Bool, (pixVal bit0 bit1).toNat = bit1.toNat * 2 + bit0.toNat

/-- R71: `RowDecode` is a list of 8 values, tile column 0 first, given by the plane formula for all byte pairs; and
the rule's example. -/
def Obligations.RowDecodeFormula : Prop :=
  (∀ b0 b1 : Byte, (rowDecode b0 b1).length = 8) ∧
  (∀ (b0 b1 : Byte) (c : Nat), c < 8 →
    ∃ v, (rowDecode b0 b1)[c]? = some v ∧ v.toNat = planePixel b0 b1 c) ∧
  rowDecode 0x55#8 0xAA#8 = [2, 1, 2, 1, 2, 1, 2, 1]

/-- R72: `TileDecode(t)[r][c] = RowDecode(t[2×r], t[2×r + 1])[c]`, 8 rows of 8; and TLJS's two examples. -/
def Obligations.TileDecodeFormula : Prop :=
  (∀ t : Vector Byte 16, (tileDecode t).length = 8) ∧
  (∀ (t : Vector Byte 16) (r : Nat) (hr : r < 8),
    (tileDecode t)[r]? = some (rowDecode (t[2 * r]'(by omega)) (t[2 * r + 1]'(by omega)))) ∧
  (∀ t : Vector Byte 16, (∀ (j : Nat) (hj : j < 16), t[j] = if j % 2 = 0 then 0x55#8 else 0xAA#8) →
    ∀ r < 8, (tileDecode t)[r]? = some [2, 1, 2, 1, 2, 1, 2, 1]) ∧
  (∀ t : Vector Byte 16, (∀ (j : Nat) (hj : j < 16), t[j] = 0xFF#8) →
    ∀ r < 8, (tileDecode t)[r]? = some [3, 3, 3, 3, 3, 3, 3, 3])

/-- R73: `RasterDecode` is a list of 14336 values, each given by the placement formula, by `TileDecode` of the tile's
16 bytes, and by the direct form for each `k`. -/
def Obligations.RasterDecodeFormula : Prop :=
  ∀ (M : Nat → Byte) (off : Nat), (rasterDecode M off).length = 14336 ∧
    (∀ tileRow < 14, ∀ tileCol < 16, ∀ r < 8, ∀ c < 8,
      ∃ v, (rasterDecode M off)[(tileRow * 8 + r) * 128 + tileCol * 8 + c]? = some v ∧
        v.toNat = planePixel (M (off + (tileRow * 16 + tileCol) * 16 + r * 2))
          (M (off + (tileRow * 16 + tileCol) * 16 + r * 2 + 1)) c ∧
        ∀ t : Vector Byte 16, (∀ (j : Nat) (hj : j < 16), t[j] = M (off + (tileRow * 16 + tileCol) * 16 + j)) →
          ∃ row, (tileDecode t)[r]? = some row ∧ row[c]? = some v) ∧
    (∀ k < 14336, ∃ v, (rasterDecode M off)[k]? = some v ∧
      v.toNat = planePixel (M (off + (k / 128 / 8 * 16 + k % 128 / 8) * 16 + k / 128 % 8 * 2))
        (M (off + (k / 128 / 8 * 16 + k % 128 / 8) * 16 + k / 128 % 8 * 2 + 1)) (k % 128 % 8))

/-- 30_encoding.md A.5 (its rule R55 is marked derived): positions in the tile grid and cells correspond one to one. -/
def Obligations.RasterIndexBijection : Prop :=
  (∀ tileRow < 14, ∀ tileCol < 16, ∀ r < 8, ∀ c < 8,
    cellIndex tileRow tileCol r c < 14336 ∧
    cellTileId (cellIndex tileRow tileCol r c) = tileRow * 16 + tileCol ∧
    cellRow (cellIndex tileRow tileCol r c) = r ∧ cellCol (cellIndex tileRow tileCol r c) = c) ∧
  (∀ k < 14336, cellTileId k < 224 ∧ cellRow k < 8 ∧ cellCol k < 8 ∧
    cellIndex (tileRowOf (cellTileId k)) (tileColOf (cellTileId k)) (cellRow k) (cellCol k) = k)

/-- 30_encoding.md A.5 (its rule R56 is marked derived): row pair `n` is at `off + 2×n`, and the 1792 row pairs fill
each of the 14336 cells exactly once, eight each. -/
def Obligations.RowPairNumbering : Prop :=
  (∀ off n, pairAddr off n = off + 2 * n) ∧
  (∀ n < 1792, ∀ c < 8, pairCell n + c < 14336 ∧ cellPair (pairCell n + c) = n ∧ cellCol (pairCell n + c) = c) ∧
  (∀ k < 14336, cellPair k < 1792 ∧ pairCell (cellPair k) + cellCol k = k ∧
    ∀ off, cellAddr off k = pairAddr off (cellPair k))

/-- 20_memory.md section 4: the addresses the 1792 row pairs are read from are exactly `off` to `off + 3583`, each read
once; none of the 512-byte tail, and no deletion flag of the host's map (R36) when the block is one of its slots. -/
def Obligations.ReadFootprint : Prop :=
  (∀ off a, (∃ n < 1792, a = pairAddr off n ∨ a = pairAddr off n + 1) ↔ off ≤ a ∧ a < off + 3584) ∧
  (∀ off m n, m < 1792 → n < 1792 → m ≠ n → pairAddr off m ≠ pairAddr off n ∧
    pairAddr off m ≠ pairAddr off n + 1) ∧
  (∀ i < 30, ∀ j < 30, ∀ n < 1792, pairAddr (slotOffset i) n ≠ deletionFlagAddr j ∧
    pairAddr (slotOffset i) n + 1 ≠ deletionFlagAddr j)

/-- R74, R81: the raster depends on the 3584 footprint bytes and `off` alone. -/
def Obligations.RasterDependsOnFootprint : Prop :=
  ∀ (M M' : Nat → Byte) (off : Nat), (∀ a, off ≤ a → a < off + 3584 → M a = M' a) →
    rasterDecode M off = rasterDecode M' off

/-- 20_memory.md section 5: in the reference buffer every one of the host's 30 slots is a legal operand of `DECODE`,
and slot 29 ends at the end of the buffer. -/
def Obligations.SlotsFitReferenceBuffer : Prop :=
  (∀ i < 30, slotOffset i < 2 ^ 24 ∧ blockFits (BitVec.ofNat 24 (slotOffset i)) 131072 = true) ∧
  slotOffset 29 + 4096 = 131072

/-! ## The three commands -/

/-- R75: `DECODE off`: its word, the three ways it is turned away, in order, and its acceptance. -/
def Obligations.DecodeCommand : Prop :=
  (∀ off : Operand, (encode (.decode off)).toNat = 0x01000000 + off.toNat) ∧
  (∀ (off : Operand) (s : State), s.st = .fault →
    exec (.decode off) s = .next { s with responses := none :: s.responses }) ∧
  (∀ (off : Operand) (s : State), s.st = .busy →
    exec (.decode off) s = .next { s with fc := .busy, st := .fault, responses := none :: s.responses }) ∧
  (∀ (off : Operand) (s : State), s.st = .idle ∨ s.st = .done → s.bufLen.val < off.toNat + 4096 →
    exec (.decode off) s = .next { s with fc := .inputTooShort, st := .fault, responses := none :: s.responses }) ∧
  (∀ (off : Operand) (s : State), s.st = .idle ∨ s.st = .done → off.toNat + 4096 ≤ s.bufLen.val →
    exec (.decode off) s = .next
      { s with offset := off, scan := 0, raster := [], st := .busy, responses := none :: s.responses })

/-- R90: `RDPIX k`: its word, the three ways it is turned away, in order, and the cell it returns, which in `DONE` is
never `⊥`. -/
def Obligations.RdpixCommand : Prop :=
  (∀ k : Operand, (encode (.rdpix k)).toNat = 0x02000000 + k.toNat) ∧
  (∀ (k : Operand) (s : State), s.st = .fault →
    exec (.rdpix k) s = .next { s with responses := none :: s.responses }) ∧
  (∀ (k : Operand) (s : State), s.st = .idle ∨ s.st = .busy →
    exec (.rdpix k) s = .next { s with fc := .notReady, st := .fault, responses := none :: s.responses }) ∧
  (∀ (k : Operand) (s : State), s.st = .done → 14336 ≤ k.toNat →
    exec (.rdpix k) s = .next { s with fc := .badIndex, st := .fault, responses := none :: s.responses }) ∧
  (∀ (k : Operand) (s : State), Inv s → s.st = .done → k.toNat < 14336 →
    ∃ v, s.cell k.toNat = some v ∧
      exec (.rdpix k) s = .next { s with responses := some (v.setWidth 32) :: s.responses })

/-- R91: `RDCR n`: its word, the illegal neighbours of it, what each of the four registers reads as in every state, and
the rule's corner cases. -/
def Obligations.RdcrCommand : Prop :=
  (∀ n : Operand, n.toNat < 4 → (encode (.rdcr n)).toNat = 0x03000000 + n.toNat) ∧
  (∀ cw : Word, cw.extractLsb' 24 8 = 3#8 → cw.extractLsb' 2 22 ≠ 0#22 → ∃ e, decodeWord cw = .error e) ∧
  (∀ s : State, ∃ w0 w1 w2 w3 : Word,
    exec (.rdcr 0) s = .next { s with responses := some w0 :: s.responses } ∧ w0.toNat = s.offset.toNat ∧
    exec (.rdcr 1) s = .next { s with responses := some w1 :: s.responses } ∧
      w1.toNat = s.fc.code * 16 + s.st.code ∧
    exec (.rdcr 2) s = .next { s with responses := some w2 :: s.responses } ∧ w2.toNat = s.scan.toNat ∧
    exec (.rdcr 3) s = .next { s with responses := some w3 :: s.responses } ∧ w3.toNat = s.bufLen.val) ∧
  (∀ s : State, Inv s → s.st = .busy → ∃ w : Word,
    exec (.rdcr 2) s = .next { s with responses := some w :: s.responses } ∧ w.toNat ≤ 1791) ∧
  (∀ s : State, Inv s → ∃ w : Word, exec (.rdcr 1) s = .next { s with responses := some w :: s.responses } ∧
    w.toNat ∈ [0x00, 0x01, 0x02, 0x13, 0x23, 0x33, 0x43, 0x53]) ∧
  (∀ (s t : State) (off : Operand), s.st ≠ .fault → exec (.decode off) s = .next t → t.st = .fault →
    ∃ w : Word, exec (.rdcr 0) t = .next { t with responses := some w :: t.responses } ∧
      w.toNat = s.offset.toNat)

/-- The frame of `DECODE` (R75 "State written"): no byte of `MEM`, no `BUFLEN`, no host move or turn is touched, one
response is added; and unless it is accepted `OFFSET`, `SCAN` and every cell keep what they had. -/
def Obligations.DecodeFrame : Prop :=
  ∀ (off : Operand) (s t : State), exec (.decode off) s = .next t →
    (∀ a, t.memRead a = s.memRead a) ∧ t.mem = s.mem ∧ t.unloaded = s.unloaded ∧ t.bufLen = s.bufLen ∧
    t.pending = s.pending ∧ t.turns = s.turns ∧ t.responses = none :: s.responses ∧
    (s.st = .busy ∨ s.st = .fault ∨ s.bufLen.val < off.toNat + 4096 →
      t.offset = s.offset ∧ t.scan = s.scan ∧ t.raster = s.raster) ∧
    (s.st = .fault ∨ t.st = .busy → t.fc = s.fc)

/-- The frame of `RDPIX` (R90 "State written"): `MEM`, `RASTER`, `OFFSET`, `SCAN`, `BUFLEN` and the host's moves and
turns are never touched; on success nothing but the response is. -/
def Obligations.RdpixFrame : Prop :=
  ∀ (k : Operand) (s t : State), exec (.rdpix k) s = .next t →
    (∀ a, t.memRead a = s.memRead a) ∧ (∀ j, t.cell j = s.cell j) ∧ t.mem = s.mem ∧ t.unloaded = s.unloaded ∧
    t.raster = s.raster ∧ t.offset = s.offset ∧ t.scan = s.scan ∧ t.bufLen = s.bufLen ∧
    t.pending = s.pending ∧ t.turns = s.turns ∧
    (∃ r, t.responses = r :: s.responses) ∧
    (s.st = .done ∧ k.toNat < 14336 ∨ s.st = .fault → t.st = s.st ∧ t.fc = s.fc)

/-- The frame of `RDCR` (R91 "State written: none"), for every register and in every state. -/
def Obligations.RdcrFrame : Prop :=
  ∀ (n : Operand) (s t : State), n.toNat < 4 → exec (.rdcr n) s = .next t →
    (∀ a, t.memRead a = s.memRead a) ∧ (∀ j, t.cell j = s.cell j) ∧
    ∃ w, t = { s with responses := some w :: s.responses }

/-! ## Faults (60_exceptions.md) -/

/-- R107: a block step never faults; which fault a command reports, in the order of the checks; a command of any word
answers a next state. -/
def Obligations.FaultPriority : Prop :=
  (∀ s : State, Inv s → s.st = .busy → ∃ t, blockStep s = .next t ∧ t.st ≠ .fault ∧ t.fc = .noFault) ∧
  (∀ (cw : Word) (s : State), Inv s → ∃ t, takeCommand cw s = .next t ∧
    if s.st = .fault then
      if cw.extractLsb' 24 8 = 3#8 ∧ ¬ IllegalWord cw then
        ∃ w, s.readCR (cw.extractLsb' 0 24) = some w ∧ t = { s with responses := some w :: s.responses }
      else t = { s with responses := none :: s.responses }
    else if IllegalWord cw then t.st = .fault ∧ t.fc = .illegalCommand
    else if cw.extractLsb' 24 8 = 1#8 ∧ s.st = .busy then t.st = .fault ∧ t.fc = .busy
    else if cw.extractLsb' 24 8 = 2#8 ∧ (s.st = .idle ∨ s.st = .busy) then t.st = .fault ∧ t.fc = .notReady
    else if cw.extractLsb' 24 8 = 1#8 ∧ s.bufLen.val < (cw.extractLsb' 0 24).toNat + 4096 then
      t.st = .fault ∧ t.fc = .inputTooShort
    else if cw.extractLsb' 24 8 = 2#8 ∧ 14336 ≤ (cw.extractLsb' 0 24).toNat then t.st = .fault ∧ t.fc = .badIndex
    else t.st ≠ .fault ∧ t.fc = .noFault)

/-- R108: a fault writes `FC` and `ST`, gives no response, and does nothing else; a decode in progress stops where it
was. -/
def Obligations.FaultEntry : Prop :=
  (∀ (cw : Word) (s t : State), s.st ≠ .fault → takeCommand cw s = .next t → t.st = .fault →
    t.fc ≠ .noFault ∧ t = { s with fc := t.fc, st := .fault, responses := none :: s.responses }) ∧
  (∀ s t : State, s.st = .fault → step s = .next t → ¬ s.resetsNext → t.scan = s.scan ∧ t.raster = s.raster)

/-- R109: in `FAULT` the legal `RDCR` words are served, every other word is ignored, the block takes no step, and `FC`
keeps the first fault until a reset. -/
def Obligations.FaultIsSticky : Prop :=
  ∀ s : State, s.st = .fault →
    (∀ n : Operand, n.toNat < 4 → ∃ w, s.readCR n = some w ∧
      takeCommand (encode (.rdcr n)) s = .next { s with responses := some w :: s.responses }) ∧
    (∀ cw : Word, (∀ n : Operand, n.toNat < 4 → cw ≠ encode (.rdcr n)) →
      takeCommand cw s = .next { s with responses := none :: s.responses }) ∧
    (∀ t, step s = .next t → ¬ s.resetsNext →
      t.st = .fault ∧ t.fc = s.fc ∧ t.offset = s.offset ∧ t.scan = s.scan ∧ t.raster = s.raster)

/-- R110: the only way out of `FAULT` is reset, which gives `IDLE`, `FC = 0` and an empty `RASTER`. -/
def Obligations.OnlyResetLeavesFault : Prop :=
  (∀ s t : State, s.st = .fault → step s = .next t → t.st ≠ .fault → s.resetsNext) ∧
  (∀ (s : State) (ms : List HostMove), s.st = .fault → s.pending = .reset :: ms →
    ∃ t, step s = .next t ∧ t.st = .idle ∧ t.fc = .noFault ∧ (∀ k, t.cell k = none))

/-- 10_state.md section 3, the transition graph: every step follows one of its arrows or stands still; `IDLE` is
entered by reset alone, `BUSY` by an accepted `DECODE` alone, `DONE` by the step in which `SCAN` reaches 1792 alone.
What the next transition is, is read from the model's lists, logs 3 and 4; the step that stands still is its choice,
log 9. -/
def Obligations.StateGraph : Prop :=
  ∀ s t : State, Inv s → step s = .next t →
    stEdge s.st t.st = true ∧
    (t.st = .idle → s.st = .idle ∨ s.resetsNext) ∧
    (t.st = .busy → s.st = .busy ∨ ∃ off, s.acceptsNext off ∧ t.offset = off) ∧
    (t.st = .done → s.st = .done ∨ s.st = .busy ∧ s.scan.toNat = 1791 ∧ t.scan.toNat = 1792) ∧
    (s.st = .idle → t.st ≠ .done)

/-! ## The block step and the decode (40_decode.md Part B) -/

/-- R76: the block step decodes row pair `n = SCAN`: two byte reads, eight cell writes, `SCAN` up by one, `DONE` when it
reaches 1792, nothing else, no fault among it; whatever host move waits, and with none waiting it is the machine's step. -/
def Obligations.BlockStepRowPair : Prop :=
  ∀ s : State, s.st = .busy → s.scan.toNat ≤ 1791 → s.offset.toNat + 4096 ≤ s.bufLen.val →
    ∃ t, blockStep s = .next t ∧ (s.pending = [] → step s = .next t) ∧
      t.scan.toNat = s.scan.toNat + 1 ∧ t.st = (if s.scan.toNat + 1 = 1792 then .done else .busy) ∧
      t.mem = s.mem ∧ t.unloaded = s.unloaded ∧ t.offset = s.offset ∧ t.fc = s.fc ∧ t.bufLen = s.bufLen ∧
      t.pending = s.pending ∧ t.turns = s.turns ∧ t.responses = s.responses ∧
      (∀ c < 8, ∃ v, t.cell ((s.scan.toNat / 8 / 16 * 8 + s.scan.toNat % 8) * 128
          + s.scan.toNat / 8 % 16 * 8 + c) = some v ∧
        v.toNat = planePixel (s.byteAt (s.offset.toNat + s.scan.toNat / 8 * 16 + s.scan.toNat % 8 * 2))
          (s.byteAt (s.offset.toNat + s.scan.toNat / 8 * 16 + s.scan.toNat % 8 * 2 + 1)) c) ∧
      (∀ k, (∀ c < 8, k ≠ (s.scan.toNat / 8 / 16 * 8 + s.scan.toNat % 8) * 128
          + s.scan.toNat / 8 % 16 * 8 + c) → t.cell k = s.cell k)

/-- 40_decode.md R77 (its count of steps is `BigStep`): the step that finds `SCAN = 1791` writes the cells 14328 to
14335 and enters `DONE`; in `DONE` the block takes no step (the still step is the model's choice, log 9); `BUSY` with
`SCAN = 1792` is never entered. -/
def Obligations.CompletionStep : Prop :=
  (∀ s : State, s.st = .busy → s.scan.toNat = 1791 → s.offset.toNat + 4096 ≤ s.bufLen.val →
    ∃ t, blockStep s = .next t ∧ t.scan.toNat = 1792 ∧ t.st = .done ∧
      (∀ k, 14328 ≤ k → k ≤ 14335 → (t.cell k).isSome) ∧
      (∀ k, k < 14328 ∨ 14335 < k → t.cell k = s.cell k)) ∧
  (∀ s : State, s.st = .done → s.pending = [] → step s = .next s) ∧
  (∀ s t : State, Inv s → step s = .next t → ¬ (t.st = .busy ∧ t.scan.toNat = 1792))

/-- 40_decode.md, the big-step law (its rule R78 is marked derived): from an accepted `DECODE off`, with no host move
left, after `j < 1792` steps the block is `BUSY` with `SCAN = j`, and after exactly 1792 it is in `DONE` with
`RASTER = RasterDecode(MEM, off)`. -/
def Obligations.BigStep : Prop :=
  ∀ (off : Operand) (s : State), s.st = .idle ∨ s.st = .done → off.toNat + 4096 ≤ s.bufLen.val → s.pending = [] →
    ∃ t, exec (.decode off) s = .next t ∧
      (∀ j < 1792, ∃ u, runFor j t = .next u ∧ u.st = .busy ∧ u.scan.toNat = j) ∧
      ∃ u, runFor 1792 t = .next u ∧ u.st = .done ∧ u.offset = off ∧ u.scan.toNat = 1792 ∧
        u.fc = s.fc ∧ u.mem = s.mem ∧ u.unloaded = s.unloaded ∧
        ∀ k < 14336, ∃ v, u.cell k = some v ∧ (rasterDecode s.byteAt off.toNat)[k]? = some v

/-- 40_decode.md R78 and R80 with a host that polls: while every move the host still makes is a legal `RDCR` or a poll,
a decode in progress reaches `DONE` with `RasterDecode` of the source, whatever the interleaving. The list of moves,
the schedule and the poll are the model's choices, logs 3, 4 and 12. -/
def Obligations.PollsDoNotDisturbDecode : Prop :=
  ∀ s : State, Inv s → RasterAgrees s → s.st = .busy →
    (∀ m ∈ s.pending, m = .poll ∨ ∃ n : Operand, n.toNat < 4 ∧ m = .command (encode (.rdcr n))) →
    ∃ j, j ≤ s.runBound ∧ ∃ u, runFor j s = .next u ∧ u.pending = [] ∧ u.st = .done ∧
      u.offset = s.offset ∧ u.mem = s.mem ∧ u.unloaded = s.unloaded ∧
      ∀ k < 14336, u.cell k = some (rasterPixel s.byteAt s.offset.toNat k)

/-- 40_decode.md, order independence (its rule R79 is marked derived): in whatever order the 1792 row pairs are decoded,
the raster is `RasterDecode`. -/
def Obligations.OrderIndependence : Prop :=
  ∀ (M : Nat → Byte) (off : Nat) (l : List Nat), l.Perm (List.range 1792) →
    l.foldl (fun raster n => writePair raster n (M (pairAddr off n)) (M (pairAddr off n + 1))) [] =
      (List.range 14336).map (fun k => (k, rasterPixel M off k))

/-- R74 on the machine: two machines whose source buffers agree on the 3584 footprint bytes, given the same `DECODE`,
end with the same raster, whatever else differs. -/
def Obligations.SameBytesSameRaster : Prop :=
  ∀ (off : Operand) (s s' t t' : State),
    s.st = .idle ∨ s.st = .done → s'.st = .idle ∨ s'.st = .done →
    off.toNat + 4096 ≤ s.bufLen.val → off.toNat + 4096 ≤ s'.bufLen.val → s.pending = [] → s'.pending = [] →
    (∀ a, off.toNat ≤ a → a < off.toNat + 3584 → s.byteAt a = s'.byteAt a) →
    exec (.decode off) s = .next t → exec (.decode off) s' = .next t' →
    ∃ u u', runFor 1792 t = .next u ∧ runFor 1792 t' = .next u' ∧
      u.st = .done ∧ u'.st = .done ∧ u.raster = u'.raster

/-! ## Invariants (10_state.md section 5) -/

/-- The invariants of 10_state.md section 5 hold at power-up, for every buffer length, and at reset. `Inv` also says
that the two stores are in canonical form, the model's choice, logs 2 and 13. -/
def Obligations.InvAtReset : Prop :=
  (∀ (n : BufLen) (u : Nat), Inv (State.powerUp n u)) ∧ Inv State.reset

/-- Every step keeps the invariants of 10_state.md section 5. -/
def Obligations.StepKeepsInv : Prop :=
  ∀ s t : State, Inv s → step s = .next t → Inv t

/-- Every step keeps the agreement of `RASTER` with the source (10_state.md section 5 item 4), but a host write in
`DONE`: "provided `MEM` has not been changed since that decode was accepted". What the next transition is, is read from
the model's lists, logs 3 and 4. -/
def Obligations.StepKeepsRasterAgreement : Prop :=
  ∀ s t : State, RasterAgrees s → ¬ (s.st = .done ∧ s.writesNext) → step s = .next t → RasterAgrees t

/-- R38: in `DONE`, `RASTER` holds `RasterDecode` of the source that stood when the `DECODE` was accepted, and that is
what `RDPIX` returns. -/
def Obligations.ReadBackIsRasterDecode : Prop :=
  ∀ (k : Operand) (s : State), Inv s → RasterAgrees s → s.st = .done → k.toNat < 14336 →
    exec (.rdpix k) s = .next
      { s with responses := some ((rasterPixel s.byteAt s.offset.toNat k.toNat).setWidth 32) :: s.responses }

/-- 41_readout.md (its rule R92 is marked derived): reading the 14336 cells in order returns the raster, each response
a word in 0 to 3, and changes nothing else. The list of moves and the list of responses, newest first, are the model's
choices, logs 3 and 5. -/
def Obligations.ReadWholeRaster : Prop :=
  ∀ s : State, Inv s → RasterAgrees s → s.st = .done →
    s.pending = (List.range 14336).map (fun k => .command (encode (.rdpix (BitVec.ofNat 24 k)))) →
    runFor 14336 s = .next
      { s with
        pending := []
        responses := ((rasterDecode s.byteAt s.offset.toNat).map (fun v => some (v.setWidth 32))).reverse
          ++ s.responses }

/-- 20_memory.md R44, 60_exceptions.md R100 and R115: the block performs no read out of range and its step never stops;
the machine stops only at a host write (logs 6 and 8). That a run that has ended answers the same state, and no fault,
is the model's choice, log 9; what the next transition is, is read from the lists of logs 3 and 4. -/
def Obligations.OnlyHostWritesStop : Prop :=
  ∀ s : State, Inv s → ¬ s.writesNext → ∃ t, step s = .next t

/-- 00_scope.md R6 and 10_state.md R11, R16: no step but a host write outside `BUSY` changes a byte of `MEM`, and none
changes `BUFLEN`. What the next transition is, is read from the model's lists, logs 3 and 4. -/
def Obligations.OnlyHostWritesChangeMem : Prop :=
  ∀ s t : State, step s = .next t → t.bufLen = s.bufLen ∧
    ((∀ a, t.memRead a = s.memRead a) ∨ s.writesNext ∧ s.st ≠ .busy)

/-- R13: `OFFSET` is written only at `DECODE` acceptance, with the operand, and by reset, with 0. What the next
transition is, is read from the model's lists, logs 3 and 4. -/
def Obligations.OffsetWrittenAtAcceptance : Prop :=
  ∀ s t : State, step s = .next t → t.offset ≠ s.offset →
    (s.resetsNext ∧ t.offset = 0) ∨ ∃ off, s.acceptsNext off ∧ t.offset = off

/-- R42: the contents of `RASTER` are discarded (every cell `⊥`) when a `DECODE` is accepted and at reset, and at no other
time: a block step keeps every cell that has a value, and any other step keeps `RASTER`. When a block step comes is the
model's choice of schedule, logs 3 and 4. -/
def Obligations.RasterDiscardedOnlyByDecodeAndReset : Prop :=
  ∀ s t : State, step s = .next t →
    (s.resetsNext ∨ (∃ off, s.acceptsNext off) → ∀ k, t.cell k = none) ∧
    (s.blockNext → ∀ k, (s.cell k).isSome → (t.cell k).isSome) ∧
    (¬ s.resetsNext → (∀ off, ¬ s.acceptsNext off) → ¬ s.blockNext → t.raster = s.raster)

/-- R18: a block step advances `SCAN` by exactly 1, an accepted `DECODE` and reset set it to 0, and any other step leaves
it; it never exceeds 1792, so it never wraps. When a block step comes is the model's choice of schedule, logs 3 and 4. -/
def Obligations.ScanIsTheSequencer : Prop :=
  ∀ s t : State, Inv s → step s = .next t →
    (s.blockNext → t.scan.toNat = s.scan.toNat + 1) ∧
    (s.resetsNext ∨ (∃ off, s.acceptsNext off) → t.scan = 0) ∧
    (¬ s.blockNext → ¬ s.resetsNext → (∀ off, ¬ s.acceptsNext off) → t.scan = s.scan) ∧
    t.scan.toNat ≤ 1792

/-! ## Reset, host moves, interleaving (70_reset_and_hazards.md) -/

/-- R120: reset, in any state, puts every component but `MEM` and `BUFLEN` to its reset value, in one transition; the
host's further moves and the responses it has had are not the block's. That a step takes the move, and in `BUSY` the host's turn, off the lists is the model's choice, logs 3
and 4. -/
def Obligations.ResetMove : Prop :=
  (∀ s : State, takeMove .reset s = .next { s with
    st := .idle, fc := .noFault, offset := 0, scan := 0, raster := [] }) ∧
  (∀ (s : State) (ms : List HostMove), s.st ≠ .busy → s.pending = .reset :: ms →
    step s = .next { s with
      st := .idle, fc := .noFault, offset := 0, scan := 0, raster := [], pending := ms }) ∧
  (∀ (s : State) (ms : List HostMove) (ts : List Agent), s.st = .busy → s.pending = .reset :: ms →
    s.turns = .host :: ts →
    step s = .next { s with
      st := .idle, fc := .noFault, offset := 0, scan := 0, raster := [], pending := ms, turns := ts })

/-- 10_state.md section 7, for every buffer length: the four registers as the host reads them after power-up, every cell
`⊥`, and a `MEM` whose contents are unspecified. That an unspecified byte is a free value of the power-up and
its address is the model's choice, log 2. -/
def Obligations.ResetState : Prop :=
  ∀ (n : BufLen) (u : Nat), (State.powerUp n u).st = .idle ∧ (State.powerUp n u).fc = .noFault ∧
    (State.powerUp n u).readCR 0 = some 0 ∧ (State.powerUp n u).readCR 1 = some 0 ∧
    (State.powerUp n u).readCR 2 = some 0 ∧ (State.powerUp n u).readCR 3 = some (BitVec.ofNat 32 n.val) ∧
    (∀ k, (State.powerUp n u).cell k = none) ∧
    (∀ a < n.val, (State.powerUp n u).memRead a = some (unloadedByte u a)) ∧
    (∀ a, n.val ≤ a → (State.powerUp n u).memRead a = none)

/-- R43, and R123 for `RASTER`: outside `BUSY` a host write puts its bytes at consecutive addresses and changes nothing
else, a finished raster included; in `BUSY` there is no such move (93_implementation_defined.md U3: refuse). That the
bytes of one directive are one move is the model's choice, log 11, and so is the refusal's form, log 6. -/
def Obligations.HostWriteMove : Prop :=
  (∀ (s : State) (a : Nat) (bytes : List Byte), s.st ≠ .busy → a + bytes.length ≤ s.bufLen.val →
    ∃ t, takeMove (.write a bytes) s = .next t ∧ t = { s with mem := t.mem } ∧
      (∀ (j : Nat) (h : j < bytes.length), t.memRead (a + j) = some bytes[j]) ∧
      (∀ x, x < a ∨ a + bytes.length ≤ x → t.memRead x = s.memRead x)) ∧
  (∀ (s : State) (a : Nat) (bytes : List Byte), s.st = .busy →
    takeMove (.write a bytes) s = .refused .sourceWriteWhileBusy)

/-- 70_reset_and_hazards.md section 4: where both agents can move, `turns` chooses; the block is never starved, for it
moves when no turn is left; outside `BUSY` the host moves, and with no move left nothing happens. The lists `pending` and
`turns` and the still step are the model's choices, logs 3, 4 and 9. -/
def Obligations.Interleaving : Prop :=
  (∀ (s : State) (m : HostMove) (ms : List HostMove) (ts : List Agent), s.st = .busy → s.pending = m :: ms →
    (s.turns = .block :: ts → step s = blockStep { s with turns := ts }) ∧
    (s.turns = .host :: ts → step s = takeMove m { s with pending := ms, turns := ts }) ∧
    (s.turns = [] → step s = blockStep s)) ∧
  (∀ s : State, s.st = .busy → s.pending = [] → step s = blockStep s) ∧
  (∀ (s : State) (m : HostMove) (ms : List HostMove), s.st ≠ .busy → s.pending = m :: ms →
    step s = takeMove m { s with pending := ms }) ∧
  (∀ s : State, s.st ≠ .busy → s.pending = [] → step s = .next s)

/-- R124 (and 95_test_vectors.md P6): an `RDPIX` issued without polling faults with `NotReady` if it is taken before
the decode has finished, at every point the interleaving can choose, and returns the pixel if the block runs first. The
lists of moves, turns and responses are the model's choices, logs 3, 4 and 5. -/
def Obligations.RdpixWithoutPolling : Prop :=
  (∀ (s : State) (k : Operand) (ms : List HostMove) (ts : List Agent) (j : Nat), Inv s → s.st = .busy →
    s.pending = .command (encode (.rdpix k)) :: ms → s.turns = List.replicate j .block ++ .host :: ts →
    s.scan.toNat + j < 1792 →
    ∃ t, runFor (j + 1) s = .next t ∧ t.st = .fault ∧ t.fc = .notReady ∧
      t.scan.toNat = s.scan.toNat + j ∧ t.responses = none :: s.responses) ∧
  (∀ (s : State) (k : Operand) (ms : List HostMove), Inv s → RasterAgrees s → s.st = .busy → k.toNat < 14336 →
    s.pending = .command (encode (.rdpix k)) :: ms → s.turns = [] →
    ∃ t, runFor (1792 - s.scan.toNat + 1) s = .next t ∧ t.st = .done ∧
      t.responses = some ((rasterPixel s.byteAt s.offset.toNat k.toNat).setWidth 32) :: s.responses)

/-- R80 and 70_reset_and_hazards.md section 4: every step of a run that has not ended brings its end nearer; a run that
has ended stands still (the still step is the model's choice, log 9). The moves, turns and polls it counts are the
model's choices, logs 3, 4 and 12. -/
def Obligations.RunBoundDecreases : Prop :=
  (∀ s t : State, step s = .next t → ¬ s.ended → t.runBound < s.runBound) ∧
  (∀ s : State, s.ended → step s = .next s)

/-- R80, and 70_reset_and_hazards.md section 5: from every state that meets the invariants, a host program without
`MEM` writes runs to its end, within the bound, in `IDLE`, `DONE` or `FAULT`. The moves, turns and polls are the
model's choices, logs 3, 4 and 12. -/
def Obligations.EveryRunEnds : Prop :=
  ∀ s : State, Inv s → (∀ a bytes, HostMove.write a bytes ∉ s.pending) →
    ∃ j, j ≤ s.runBound ∧ ∃ t, runFor j s = .next t ∧ t.ended ∧
      (t.st = .idle ∨ t.st = .done ∨ t.st = .fault)

/-- R41, R61: when the host's next move is a word that decodes to `i`, a step is `exec i` once the move (and, in `BUSY`,
the host's turn) is taken off. The lists of moves and turns are the model's choices, logs 3 and 4. -/
def Obligations.StepRunsDecodedInstruction : Prop :=
  ∀ (s : State) (cw : Word) (i : Instr) (ms : List HostMove), s.pending = .command cw :: ms →
    decodeWord cw = .ok i →
    (s.st ≠ .busy → step s = exec i { s with pending := ms }) ∧
    (∀ ts, s.st = .busy → s.turns = .host :: ts → step s = exec i { s with pending := ms, turns := ts })

/-- The command port (R57), by the model's own choice of how a word is given, log 10: a word given to the machine, in any
state, is what the very next step takes. -/
def Obligations.GivenWordIsNext : Prop :=
  ∀ (s : State) (w : Nat), w < 2 ^ 32 →
    step (s.withFetchWord 32 w) = takeCommand (BitVec.ofNat 32 w) s ∧
    ∀ i, decodeTableWord 32 w = some i → step (s.withFetchWord 32 w) = exec i s

/-! ## The assembler (30_encoding.md Part C) -/

/-- R62: each command line assembles to the one word `op×2^24 + imm`, which decodes to its command, and an operand
outside its range is refused. -/
def Obligations.CommandLinesAssemble : Prop :=
  (∀ off < 2 ^ 24, assembleLines [.decode off] = .ok [.command (encode (.decode (BitVec.ofNat 24 off)))] ∧
    (encode (.decode (BitVec.ofNat 24 off))).toNat = 1 * 2 ^ 24 + off) ∧
  (∀ k < 2 ^ 24, assembleLines [.rdpix k] = .ok [.command (encode (.rdpix (BitVec.ofNat 24 k)))] ∧
    (encode (.rdpix (BitVec.ofNat 24 k))).toNat = 2 * 2 ^ 24 + k) ∧
  (∀ n ≤ 3, assembleLines [.rdcr n] = .ok [.command (encode (.rdcr (BitVec.ofNat 24 n)))] ∧
    (encode (.rdcr (BitVec.ofNat 24 n))).toNat = 3 * 2 ^ 24 + n) ∧
  (∀ off, 2 ^ 24 ≤ off → assembleLines [.decode off] = .error (.operandOutOfRange (.decode off))) ∧
  (∀ k, 2 ^ 24 ≤ k → assembleLines [.rdpix k] = .error (.operandOutOfRange (.rdpix k))) ∧
  (∀ n, 3 < n → assembleLines [.rdcr n] = .error (.operandOutOfRange (.rdcr n)))

/-- R63: the four pseudo-commands' expansions, the refusal of an operand outside its range, and what the poll of `WAIT` does: `RDCR 1`, again while the response
shows `BUSY`. That a poll is one host move, made again, is the model's choice, log 12. -/
def Obligations.PseudoCommands : Prop :=
  (∀ i ≤ 29, assembleLines [.decodeSlot i] = assembleLines [.decode (0x2000 + i * 0x1000)]) ∧
  (∀ x ≤ 127, ∀ y ≤ 111, assembleLines [.rdxy x y] = assembleLines [.rdpix (y * 128 + x)]) ∧
  (∀ i, 29 < i → assembleLines [.decodeSlot i] = .error (.operandOutOfRange (.decodeSlot i))) ∧
  (∀ x y, 127 < x ∨ 111 < y → assembleLines [.rdxy x y] = .error (.operandOutOfRange (.rdxy x y))) ∧
  assembleLines [.rdstat] = assembleLines [.rdcr 1] ∧
  assembleLines [.wait] = .ok [.poll] ∧
  (∀ s : State, ∃ w : Word, exec (.rdcr 1) s = .next { s with responses := some w :: s.responses } ∧
    takeMove .poll s = .next { s with
      responses := some w :: s.responses
      pending := if w.toNat % 4 = 1 then .poll :: s.pending else s.pending })

/-- R64: what each directive makes of the host's moves: `.mem` and `.fill` one write of exactly their bytes, `.reset` a
reset, `.word w` the command word `w` whatever it decodes to, `.expect` none; and a blank line none. What the moves do is
`HostWriteMove`, `ResetMove` and `IllegalWordsFault`. That a directive's bytes are one move is the model's choice, log 11,
and so are a blank line's being legal and the refusal of a byte or a word too large, log 14. -/
def Obligations.DirectivesAssemble : Prop :=
  (∀ (a : Nat) (bytes : List Nat), (∀ b ∈ bytes, b < 256) →
    ∃ bs : List Byte, assembleLines [.mem a bytes] = .ok [.write a bs] ∧ bs.map BitVec.toNat = bytes) ∧
  (∀ a len b : Nat, b < 256 →
    ∃ bs : List Byte, assembleLines [.fill a len b] = .ok [.write a bs] ∧ bs.length = len ∧
      ∀ (j : Nat) (h : j < bs.length), bs[j].toNat = b) ∧
  assembleLines [.reset] = .ok [.reset] ∧
  (∀ w < 2 ^ 32, ∃ cw : Word, assembleLines [.word w] = .ok [.command cw] ∧ cw.toNat = w) ∧
  assembleLines [.expect none] = .ok [] ∧ (∀ v < 2 ^ 32, assembleLines [.expect (some v)] = .ok []) ∧
  assembleLines [.blank] = .ok [] ∧
  (∀ (a : Nat) (bytes : List Nat), (∃ b ∈ bytes, 256 ≤ b) →
    assembleLines [.mem a bytes] = .error (.operandOutOfRange (.mem a bytes))) ∧
  (∀ a len b : Nat, 256 ≤ b → assembleLines [.fill a len b] = .error (.operandOutOfRange (.fill a len b))) ∧
  (∀ w, 2 ^ 32 ≤ w → assembleLines [.word w] = .error (.operandOutOfRange (.word w)) ∧
    assembleLines [.expect (some w)] = .error (.operandOutOfRange (.expect (some w))))

/-- 30_encoding.md Part C: a program of legal lines assembles to the moves of its lines in order, each line's being
what it assembles to alone (`CommandLinesAssemble`, `PseudoCommands`, `DirectivesAssemble`); the first line that is
refused alone for its operand has the program refused; `.buflen` sets the buffer length when it comes first, and is
refused above 2^24 and anywhere else. The length without a `.buflen` line is the model's choice, log 15. So is which
refusal a program with several wrong lines gets, the first wrong line's, and that blank lines are legal, log 14. -/
def Obligations.ProgramsAssembleInOrder : Prop :=
  (∀ (ls : List Line) (parts : List (List HostMove)),
    List.Forall₂ (fun l ms => assembleLines [l] = .ok ms) ls parts →
    assemble ls = .ok ⟨131072, parts.flatten⟩ ∧
    ∀ n : BufLen, assemble (.bufLen n.val :: ls) = .ok ⟨n, parts.flatten⟩) ∧
  (∀ (ls ls' : List Line) (l : Line), (∀ l' ∈ ls, ∃ ms, assembleLines [l'] = .ok ms) →
    assembleLines [l] = .error (.operandOutOfRange l) →
    assemble (ls ++ l :: ls') = .error (.operandOutOfRange l) ∧
    ∀ n : BufLen, assemble (.bufLen n.val :: ls ++ l :: ls') = .error (.operandOutOfRange l)) ∧
  (∀ (ls : List Line) (n : Nat), 2 ^ 24 < n →
    assemble (.bufLen n :: ls) = .error (.operandOutOfRange (.bufLen n))) ∧
  (∀ (ls ls' : List Line) (n : Nat), (∀ l ∈ ls, l.inRange = true) → (∃ l ∈ ls, l ≠ .blank) →
    assemble (ls ++ .bufLen n :: ls') = .error .bufLenNotFirst)
end

