-- ==== Sys2Proof/Laws/Decode.lean ====
section
/-! SUPPORT. The decoder in terms of a word's two fields. -/
namespace Sys2Proof

/-- A command word is its `op` field above its `imm` field (R57). -/
theorem opField_append_immField (cw : Word) : opField cw ++ immField cw = cw := by
  have h := BitVec.extractLsb'_append_extractLsb'_eq_extractLsb' (x := cw) (start₂ := 24) (start₁ := 0)
    (len₁ := 24) (len₂ := 8) rfl
  exact h.trans (BitVec.extractLsb'_eq_self)

@[simp] theorem opField_append (op : BitVec 8) (imm : Operand) : opField (op ++ imm) = op :=
  BitVec.extractLsb'_append_eq_left

@[simp] theorem immField_append (op : BitVec 8) (imm : Operand) : immField (op ++ imm) = imm :=
  BitVec.extractLsb'_append_eq_right

/-- Two words with the same fields are the same word. -/
theorem append_eq_append_iff {op op' : BitVec 8} {imm imm' : Operand} :
    op ++ imm = op' ++ imm' ↔ op = op' ∧ imm = imm' := by
  constructor
  · intro h
    have h1 := congrArg opField h
    have h2 := congrArg immField h
    simp only [opField_append, immField_append] at h1 h2
    exact ⟨h1, h2⟩
  · rintro ⟨rfl, rfl⟩; rfl

/-- The number a command word is: `op×2^24 + imm` (R62). -/
theorem toNat_op_append (op : BitVec 8) (imm : Operand) : (op ++ imm).toNat = op.toNat * 2 ^ 24 + imm.toNat := by
  rw [BitVec.toNat_append, Nat.shiftLeft_eq, ← Nat.shiftLeft_eq, Nat.shiftLeft_add_eq_or_of_lt imm.isLt]

/-- The register number is legal when bits [23:2] of the operand are 0 (R58). -/
theorem rdcr_operand_iff (imm : Operand) : imm &&& 0xFFFFFC#24 = 0#24 ↔ imm.toNat < 4 := by
  have hs : imm = imm.extractLsb' 2 22 ++ imm.extractLsb' 0 2 := by
    have h := BitVec.extractLsb'_append_extractLsb'_eq_extractLsb' (x := imm) (start₂ := 2) (start₁ := 0)
      (len₁ := 2) (len₂ := 22) rfl
    exact (h.trans BitVec.extractLsb'_eq_self).symm
  have hm : (0xFFFFFC#24 : BitVec 24) = 0x3FFFFF#22 ++ 0#2 := by decide
  have hz : (0#24 : BitVec 24) = 0#22 ++ 0#2 := by decide
  have h22 : BitVec.extractLsb' 2 22 imm &&& 0x3FFFFF#22 = BitVec.extractLsb' 2 22 imm :=
    BitVec.and_allOnes
  have hn : (BitVec.extractLsb' 2 22 imm).toNat = imm.toNat / 4 := by
    have := imm.isLt
    simp only [BitVec.extractLsb'_toNat, Nat.shiftRight_eq_div_pow]
    omega
  constructor
  · intro h
    rw [hs, hm, BitVec.and_append, BitVec.and_zero, h22, hz, BitVec.append_left_inj] at h
    rw [h] at hn
    simp only [BitVec.toNat_ofNat] at hn
    omega
  · intro h
    have h0 : BitVec.extractLsb' 2 22 imm = 0#22 := by
      apply BitVec.eq_of_toNat_eq
      rw [hn]
      simp only [BitVec.toNat_ofNat]
      omega
    rw [hs, hm, BitVec.and_append, BitVec.and_zero, h22, h0, hz]

/-- What the decoder reads from a word's two fields (R59, R60). -/
theorem decodeWord_append (op : BitVec 8) (imm : Operand) : decodeWord (op ++ imm) =
    if op = 1 then .ok (.decode imm)
    else if op = 2 then .ok (.rdpix imm)
    else if op = 3 then if imm.toNat < 4 then .ok (.rdcr imm) else .error (.rdcrOperand imm)
    else .error (.reservedOp op) := by
  have sel : ∀ p m : BitVec 8, ∀ q n : Operand, ((op ++ imm) &&& (m ++ n) == p ++ q) =
      decide (op &&& m = p ∧ imm &&& n = q) := by
    intro p m q n
    rw [BitVec.and_append, Bool.eq_iff_iff, beq_iff_eq, append_eq_append_iff, decide_eq_true_iff]
  have m1 : (0xFF000000#32 : Word) = 0xFF#8 ++ 0#24 := by decide
  have m3 : (0xFFFFFFFC#32 : Word) = 0xFF#8 ++ 0xFFFFFC#24 := by decide
  have p1 : (0x01000000#32 : Word) = 1#8 ++ 0#24 := by decide
  have p2 : (0x02000000#32 : Word) = 2#8 ++ 0#24 := by decide
  have p3 : (0x03000000#32 : Word) = 3#8 ++ 0#24 := by decide
  have hand : op &&& 0xFF#8 = op := BitVec.and_allOnes
  have s1 : rowSelects (op ++ imm) ⟨.DECODE, 0x01000000#32, 0xFF000000#32⟩ = decide (op = 1#8) := by
    rw [rowSelects, m1, p1, sel, hand, BitVec.and_zero]; simp
  have s2 : rowSelects (op ++ imm) ⟨.RDPIX, 0x02000000#32, 0xFF000000#32⟩ = decide (op = 2#8) := by
    rw [rowSelects, m1, p2, sel, hand, BitVec.and_zero]; simp
  have s3 : rowSelects (op ++ imm) ⟨.RDCR, 0x03000000#32, 0xFFFFFFFC#32⟩
      = decide (op = 3#8 ∧ imm.toNat < 4) := by
    rw [rowSelects, m3, p3, sel, hand]
    exact decide_eq_decide.mpr (and_congr_right fun _ => rdcr_operand_iff imm)
  rw [decodeWord, opcodeTable]
  simp only [List.find?, s1, s2, s3, opField_append, immField_append, instrOf]
  by_cases h1 : op = 1#8
  · subst h1; rfl
  by_cases h2 : op = 2#8
  · subst h2; rfl
  by_cases h3 : op = 3#8
  · subst h3
    by_cases h4 : imm.toNat < 4 <;> simp [h4]
  · simp [h1, h2, h3]

/-- The same for any word. -/
theorem decodeWord_fields (cw : Word) : decodeWord cw =
    if opField cw = 1 then .ok (.decode (immField cw))
    else if opField cw = 2 then .ok (.rdpix (immField cw))
    else if opField cw = 3 then
      if (immField cw).toNat < 4 then .ok (.rdcr (immField cw)) else .error (.rdcrOperand (immField cw))
    else .error (.reservedOp (opField cw)) := by
  have h := decodeWord_append (opField cw) (immField cw)
  rwa [opField_append_immField] at h

end Sys2Proof
end

