-- ==== Sys2Proof/Laws/Store.lean ====
section
/-! SUPPORT. The laws of the sparse stores: read after write, the canonical form is kept, and equal contents are equal
data. -/
namespace Sys2Proof.Machine

variable {α : Type}

@[simp] theorem storeGet_nil (k : Nat) : storeGet ([] : List (Nat × α)) k = none := rfl

/-- Read after write: the written key reads as the written value, every other key as before. -/
theorem storeGet_storeSet (l : List (Nat × α)) (k : Nat) (v : α) (j : Nat) :
    storeGet (storeSet l k v) j = if j = k then some v else storeGet l j := by
  induction l with
  | nil => simp only [storeSet, storeGet, eq_comm]
  | cons e l ih =>
    obtain ⟨i, u⟩ := e
    have hs : storeGet (storeSet ((i, u) :: l) k v) j =
        if k < i then storeGet ((k, v) :: (i, u) :: l) j
        else if k = i then storeGet ((k, v) :: l) j
        else storeGet ((i, u) :: storeSet l k v) j := by
      rw [storeSet]; split_ifs <;> rfl
    rw [hs]
    simp only [storeGet, ih]
    split_ifs <;> first | rfl | omega

/-- Writing consecutive values: each lands at its key, every other key reads as before. -/
theorem storeGet_storeSetFrom (vs : List α) : ∀ (l : List (Nat × α)) (k j : Nat),
    storeGet (storeSetFrom l k vs) j = if k ≤ j ∧ j < k + vs.length then vs[j - k]? else storeGet l j := by
  induction vs with
  | nil =>
    intro l k j
    have h : ¬ (k ≤ j ∧ j < k + ([] : List α).length) := by simp only [List.length_nil]; omega
    rw [storeSetFrom, if_neg h]
  | cons v vs ih =>
    intro l k j
    rw [storeSetFrom, ih, storeGet_storeSet]
    rcases Nat.lt_trichotomy j k with h | h | h
    · have h1 : ¬ (k + 1 ≤ j ∧ j < k + 1 + vs.length) := by omega
      have h2 : ¬ (k ≤ j ∧ j < k + (v :: vs).length) := by omega
      rw [if_neg h1, if_neg (by omega), if_neg h2]
    · subst h
      simp
    · obtain ⟨d, rfl⟩ : ∃ d, j = k + 1 + d := ⟨j - (k + 1), by omega⟩
      have e1 : k + 1 + d - (k + 1) = d := by omega
      have e2 : k + 1 + d - k = d + 1 := by omega
      by_cases hd : d < vs.length
      · rw [if_pos (by omega), if_pos (by simp; omega), e1, e2, List.getElem?_cons_succ]
      · rw [if_neg (by omega), if_neg (by omega), if_neg (by simp; omega)]

theorem mem_storeSet_fst {l : List (Nat × α)} {k : Nat} {v : α} {x : Nat}
    (h : x ∈ (storeSet l k v).map Prod.fst) : x = k ∨ x ∈ l.map Prod.fst := by
  induction l with
  | nil => simpa [storeSet] using h
  | cons e l ih =>
    obtain ⟨i, u⟩ := e
    unfold storeSet at h
    split_ifs at h with h1 h2
    · simpa using h
    · subst h2; simp at h ⊢; tauto
    · simp only [List.map_cons, List.mem_cons] at h ⊢
      rcases h with h | h
      · exact .inr (.inl h)
      · rcases ih h with h | h
        · exact .inl h
        · exact .inr (.inr h)

/-- A write keeps the canonical form. -/
theorem storeSet_wf {l : List (Nat × α)} (h : storeWf l) (k : Nat) (v : α) : storeWf (storeSet l k v) := by
  induction l with
  | nil => simp [storeWf, storeSet]
  | cons e l ih =>
    obtain ⟨i, u⟩ := e
    simp only [storeWf, List.map_cons, List.pairwise_cons] at h ih ⊢
    unfold storeSet
    split_ifs with h1 h2
    · simp only [List.map_cons, List.pairwise_cons, List.mem_cons]
      refine ⟨?_, h⟩
      rintro x (rfl | hx)
      · exact h1
      · exact Nat.lt_trans h1 (h.1 x hx)
    · subst h2
      simpa [List.pairwise_cons] using h
    · simp only [List.map_cons, List.pairwise_cons]
      refine ⟨fun x hx => ?_, ih h.2⟩
      rcases mem_storeSet_fst hx with rfl | hx
      · omega
      · exact h.1 x hx

theorem storeSetFrom_wf (vs : List α) : ∀ {l : List (Nat × α)} (_ : storeWf l) (k : Nat),
    storeWf (storeSetFrom l k vs) := by
  induction vs with
  | nil => intro l h k; exact h
  | cons v vs ih => intro l h k; exact ih (storeSet_wf h k v) (k + 1)

/-- Keys stay below a bound that the written keys respect. -/
theorem storeSetFrom_keys_lt (vs : List α) : ∀ {l : List (Nat × α)} {k b : Nat},
    (∀ e ∈ l, e.1 < b) → (vs = [] ∨ k + vs.length ≤ b) → ∀ e ∈ storeSetFrom l k vs, e.1 < b := by
  induction vs with
  | nil => intro l k b h _; exact h
  | cons v vs ih =>
    intro l k b h hb
    simp only [List.cons_ne_nil, false_or, List.length_cons] at hb
    refine ih (fun e he => ?_) (.inr (by omega))
    rcases mem_storeSet_fst (List.mem_map_of_mem he) with h1 | h1
    · omega
    · obtain ⟨e', he', h2⟩ := List.mem_map.mp h1
      rw [← h2]
      exact h e' he'

theorem storeGet_eq_none {l : List (Nat × α)} {k : Nat} (h : ∀ e ∈ l, e.1 ≠ k) : storeGet l k = none := by
  induction l with
  | nil => rfl
  | cons e l ih =>
    obtain ⟨i, u⟩ := e
    have hi : i ≠ k := h (i, u) (by simp)
    simp only [storeGet, hi, if_false]
    exact ih fun e he => h e (by simp [he])

theorem mem_of_storeGet {l : List (Nat × α)} {k : Nat} {v : α} (h : storeGet l k = some v) : (k, v) ∈ l := by
  induction l with
  | nil => simp at h
  | cons e l ih =>
    obtain ⟨i, u⟩ := e
    unfold storeGet at h
    split_ifs at h with h1
    · cases h; simp [h1]
    · exact List.mem_cons_of_mem _ (ih h)

/-- Stores in canonical form that read alike are equal. -/
theorem store_ext {l : List (Nat × α)} : ∀ {m : List (Nat × α)} (_ : storeWf l) (_ : storeWf m)
    (_ : ∀ k, storeGet l k = storeGet m k), l = m := by
  induction l with
  | nil =>
    intro m _ _ h
    cases m with
    | nil => rfl
    | cons e m => have := h e.1; simp [storeGet] at this
  | cons e l ih =>
    intro m hl hm h
    obtain ⟨i, u⟩ := e
    cases m with
    | nil => have := h i; simp [storeGet] at this
    | cons e' m =>
      obtain ⟨j, w⟩ := e'
      simp only [storeWf, List.map_cons, List.pairwise_cons, List.mem_map] at hl hm
      have below : ∀ {n : List (Nat × α)} {a b : Nat}, (∀ x, (∃ e ∈ n, e.1 = x) → a < x) → b ≤ a →
          storeGet n b = none := fun {n a b} hn hb =>
        storeGet_eq_none fun e he hc => by have := hn e.1 ⟨e, he, rfl⟩; omega
      have hij : i = j := by
        rcases Nat.lt_trichotomy i j with hlt | heq | hlt
        · have := h i
          rw [storeGet, if_pos rfl, storeGet, if_neg (by omega), below hm.1 (by omega)] at this
          cases this
        · exact heq
        · have := h j
          rw [storeGet, if_neg (by omega), storeGet, if_pos rfl, below hl.1 (by omega)] at this
          cases this
      subst hij
      have huw : u = w := by simpa [storeGet] using h i
      subst huw
      rw [ih hl.2 hm.2 fun k => ?_]
      by_cases hk : i = k
      · subst hk
        rw [below hl.1 (Nat.le_refl _), below hm.1 (Nat.le_refl _)]
      · simpa [storeGet, hk] using h k

/-- A store written out with one entry per listed key reads that entry. -/
theorem storeGet_map (f : Nat → α) (k : Nat) (ks : List Nat) :
    storeGet (ks.map fun j => (j, f j)) k = if k ∈ ks then some (f k) else none := by
  induction ks with
  | nil => simp
  | cons j ks ih =>
    by_cases h : j = k
    · simp [storeGet, h]
    · have h' : ¬ k = j := fun e => h e.symm
      simp [storeGet, h, h', ih]

/-- A store that lists every key below `n`, in order, is in canonical form. -/
theorem storeWf_map_range (f : Nat → α) (n : Nat) : storeWf ((List.range n).map fun j => (j, f j)) := by
  have h : (Prod.fst ∘ fun j => (j, f j)) = id := rfl
  rw [storeWf, List.map_map, h, List.map_id]
  exact List.pairwise_lt_range

end Sys2Proof.Machine
end

