-- ==== Sys2Proof/Laws/Raster.lean ====
section
/-! SUPPORT. The arithmetic of the layout, and what writing one row pair does. -/
namespace Sys2Proof.Machine

open Sys2Proof Sys2Proof.Config

/-- `bit(b, i) = (b div 2^i) mod 2` (R7). -/
theorem toNat_bit (b : Byte) (i : Nat) : (bit b i).toNat = b.toNat / 2 ^ i % 2 := by
  rw [bit, BitVec.getLsbD, Nat.toNat_testBit]

theorem length_rowDecode (b0 b1 : Byte) : (rowDecode b0 b1).length = 8 := by
  simp [rowDecode]

theorem getElem?_rowDecode (b0 b1 : Byte) {c : Nat} (h : c < 8) :
    (rowDecode b0 b1)[c]? = some (rowPixel b0 b1 c) := by
  simp [rowDecode, h]

theorem length_rasterDecode (M : Nat → Byte) (off : Nat) : (rasterDecode M off).length = 14336 := by
  simp [rasterDecode]

theorem getElem?_rasterDecode (M : Nat → Byte) (off : Nat) {k : Nat} (h : k < 14336) :
    (rasterDecode M off)[k]? = some (rasterPixel M off k) := by
  simp [rasterDecode, h]

/-- Row pair `n` is at `off + 2×n` (R56). -/
theorem pairAddr_eq (off n : Nat) : pairAddr off n = off + 2 * n := by
  simp only [pairAddr, rowAddr, pairTileId, pairRow, TS, TILE_BYTES, ROW_BYTES]
  omega

/-- A cell's source address is that of the row pair that fills it (R55, R56). -/
theorem cellAddr_eq (off k : Nat) : cellAddr off k = off + 2 * cellPair k := by
  simp only [cellAddr, rowAddr, cellPair, TS, TILE_BYTES, ROW_BYTES]
  omega

/-- The first cell of row pair `n` in the raster (R56), as a number. -/
theorem pairCell_eq (n : Nat) : pairCell n = n / 128 * 1024 + n % 8 * 128 + n / 8 % 16 * 8 := by
  simp only [pairCell, cellIndex, tileRowOf, tileColOf, pairTileId, pairRow, TS, TCOLS, W]
  omega

/-- The row pair of a cell (R55), as a number. -/
theorem cellPair_eq (k : Nat) : cellPair k = k / 1024 * 128 + k % 128 / 8 * 8 + k / 128 % 8 := by
  simp only [cellPair, cellTileId, cellRow, cellX, cellY, TS, TCOLS, W]
  omega

/-- The column of a cell inside its tile (R55), as a number. -/
theorem cellCol_eq (k : Nat) : cellCol k = k % 8 := by
  simp only [cellCol, cellX, TS, W]
  omega

/-- The first cell of the row pair at tile row `A`, tile column `C`, row `R`. -/
theorem pairCell_at {A C R : Nat} (hC : C < 16) (hR : R < 8) :
    pairCell (A * 128 + C * 8 + R) = A * 1024 + R * 128 + C * 8 := by
  have h1 : (A * 128 + C * 8 + R) / 128 = A := by omega
  have h2 : (A * 128 + C * 8 + R) % 8 = R := by omega
  have h3 : (A * 128 + C * 8 + R) / 8 = A * 16 + C := by omega
  have h4 : (A * 16 + C) % 16 = C := by omega
  rw [pairCell_eq, h1, h2, h3, h4]

/-- The row pair of the cell at tile row `A`, row `R`, tile column `C`, column `c`. -/
theorem cellPair_at {A R C c : Nat} (hR : R < 8) (hC : C < 16) (hc : c < 8) :
    cellPair (A * 1024 + R * 128 + C * 8 + c) = A * 128 + C * 8 + R := by
  have h1 : (A * 1024 + R * 128 + C * 8 + c) / 1024 = A := by omega
  have h2 : (A * 1024 + R * 128 + C * 8 + c) % 128 = C * 8 + c := by omega
  have h3 : (A * 1024 + R * 128 + C * 8 + c) / 128 = A * 8 + R := by omega
  have h4 : (C * 8 + c) / 8 = C := by omega
  have h5 : (A * 8 + R) % 8 = R := by omega
  rw [cellPair_eq, h1, h2, h3, h4, h5]

/-- Every cell has such coordinates. -/
theorem cell_coords (k : Nat) : ∃ A R C c, R < 8 ∧ C < 16 ∧ c < 8 ∧ k = A * 1024 + R * 128 + C * 8 + c :=
  ⟨k / 1024, k / 128 % 8, k % 128 / 8, k % 8, by omega, by omega, by omega, by omega⟩

/-- Every row pair has such coordinates. -/
theorem pair_coords (n : Nat) : ∃ A C R, C < 16 ∧ R < 8 ∧ n = A * 128 + C * 8 + R :=
  ⟨n / 128, n / 8 % 16, n % 8, by omega, by omega, by omega⟩

/-- The cells of a row pair are those whose row pair it is. -/
theorem pairCell_le_iff {n : Nat} (k : Nat) : pairCell n ≤ k ∧ k < pairCell n + 8 ↔ cellPair k = n := by
  obtain ⟨A, R, C, c, hR, hC, hc, rfl⟩ := cell_coords k
  obtain ⟨A', C', R', hC', hR', rfl⟩ := pair_coords n
  rw [pairCell_at hC' hR', cellPair_at hR hC hc]
  omega

/-- The place of a cell among the eight of its row pair is its tile column. -/
theorem sub_pairCell (k : Nat) : k - pairCell (cellPair k) = cellCol k := by
  obtain ⟨A, R, C, c, hR, hC, hc, rfl⟩ := cell_coords k
  rw [cellPair_at hR hC hc, pairCell_at hC hR, cellCol_eq]
  omega

/-- The row pairs 0 to 1791 fill the cells 0 to 14335. -/
theorem cellPair_lt_iff (k : Nat) : cellPair k < 1792 ↔ k < 14336 := by
  rw [cellPair_eq]
  omega

theorem pairCell_add_le {n : Nat} (h : n < 1792) : pairCell n + 8 ≤ 14336 := by
  rw [pairCell_eq]
  omega

/-- What writing row pair `n` does to the raster: its eight cells get their pixels, every other cell stays (R76). -/
theorem storeGet_writePair (raster : List (Nat × Pixel)) (n : Nat) (b0 b1 : Byte) (k : Nat) :
    storeGet (writePair raster n b0 b1) k =
      if cellPair k = n then some (rowPixel b0 b1 (cellCol k)) else storeGet raster k := by
  rw [writePair, storeGet_storeSetFrom, length_rowDecode]
  by_cases h : cellPair k = n
  · subst h
    have hc : cellCol k < 8 := by rw [cellCol_eq]; omega
    rw [if_pos ((pairCell_le_iff k).mpr rfl), if_pos rfl, sub_pairCell, getElem?_rowDecode _ _ hc]
  · rw [if_neg (fun hk => h ((pairCell_le_iff k).mp hk)), if_neg h]

/-- Writing a row pair keeps the raster's canonical form. -/
theorem writePair_wf {raster : List (Nat × Pixel)} (h : storeWf raster) (n : Nat) (b0 b1 : Byte) :
    storeWf (writePair raster n b0 b1) := storeSetFrom_wf _ h _

/-- Writing a row pair of the raster writes no cell outside it. -/
theorem writePair_inRange {raster : List (Nat × Pixel)} (h : ∀ e ∈ raster, e.1 < 14336) {n : Nat} (hn : n < 1792)
    (b0 b1 : Byte) : ∀ e ∈ writePair raster n b0 b1, e.1 < 14336 :=
  storeSetFrom_keys_lt _ h (.inr (by rw [length_rowDecode]; exact pairCell_add_le hn))

end Sys2Proof.Machine
end

