-- ==== Sys2Proof/Laws/State.lean ====
section
/-! SUPPORT. One lemma per field per update of the state, so that no later proof unfolds a record update. -/
namespace Sys2Proof.Machine

open Sys2Proof

@[simp] theorem State.respond_mem (s : State) (r : Option Word) : (s.respond r).mem = s.mem := rfl
@[simp] theorem State.respond_unloaded (s : State) (r : Option Word) : (s.respond r).unloaded = s.unloaded := rfl
@[simp] theorem State.respond_raster (s : State) (r : Option Word) : (s.respond r).raster = s.raster := rfl
@[simp] theorem State.respond_offset (s : State) (r : Option Word) : (s.respond r).offset = s.offset := rfl
@[simp] theorem State.respond_st (s : State) (r : Option Word) : (s.respond r).st = s.st := rfl
@[simp] theorem State.respond_fc (s : State) (r : Option Word) : (s.respond r).fc = s.fc := rfl
@[simp] theorem State.respond_scan (s : State) (r : Option Word) : (s.respond r).scan = s.scan := rfl
@[simp] theorem State.respond_bufLen (s : State) (r : Option Word) : (s.respond r).bufLen = s.bufLen := rfl
@[simp] theorem State.respond_pending (s : State) (r : Option Word) : (s.respond r).pending = s.pending := rfl
@[simp] theorem State.respond_turns (s : State) (r : Option Word) : (s.respond r).turns = s.turns := rfl
@[simp] theorem State.respond_responses (s : State) (r : Option Word) : (s.respond r).responses = r :: s.responses := rfl

@[simp] theorem State.raise_mem (s : State) (f : FaultCode) : (s.raise f).mem = s.mem := rfl
@[simp] theorem State.raise_unloaded (s : State) (f : FaultCode) : (s.raise f).unloaded = s.unloaded := rfl
@[simp] theorem State.raise_raster (s : State) (f : FaultCode) : (s.raise f).raster = s.raster := rfl
@[simp] theorem State.raise_offset (s : State) (f : FaultCode) : (s.raise f).offset = s.offset := rfl
@[simp] theorem State.raise_st (s : State) (f : FaultCode) : (s.raise f).st = .fault := rfl
@[simp] theorem State.raise_fc (s : State) (f : FaultCode) : (s.raise f).fc = f := rfl
@[simp] theorem State.raise_scan (s : State) (f : FaultCode) : (s.raise f).scan = s.scan := rfl
@[simp] theorem State.raise_bufLen (s : State) (f : FaultCode) : (s.raise f).bufLen = s.bufLen := rfl
@[simp] theorem State.raise_pending (s : State) (f : FaultCode) : (s.raise f).pending = s.pending := rfl
@[simp] theorem State.raise_turns (s : State) (f : FaultCode) : (s.raise f).turns = s.turns := rfl
@[simp] theorem State.raise_responses (s : State) (f : FaultCode) : (s.raise f).responses = none :: s.responses := rfl

@[simp] theorem State.applyReset_mem (s : State) : s.applyReset.mem = s.mem := rfl
@[simp] theorem State.applyReset_unloaded (s : State) : s.applyReset.unloaded = s.unloaded := rfl
@[simp] theorem State.applyReset_raster (s : State) : s.applyReset.raster = [] := rfl
@[simp] theorem State.applyReset_offset (s : State) : s.applyReset.offset = 0 := rfl
@[simp] theorem State.applyReset_st (s : State) : s.applyReset.st = .idle := rfl
@[simp] theorem State.applyReset_fc (s : State) : s.applyReset.fc = .noFault := rfl
@[simp] theorem State.applyReset_scan (s : State) : s.applyReset.scan = 0 := rfl
@[simp] theorem State.applyReset_bufLen (s : State) : s.applyReset.bufLen = s.bufLen := rfl
@[simp] theorem State.applyReset_pending (s : State) : s.applyReset.pending = s.pending := rfl
@[simp] theorem State.applyReset_turns (s : State) : s.applyReset.turns = s.turns := rfl
@[simp] theorem State.applyReset_responses (s : State) : s.applyReset.responses = s.responses := rfl

@[simp] theorem State.acceptDecode_mem (s : State) (off : Operand) : (s.acceptDecode off).mem = s.mem := rfl
@[simp] theorem State.acceptDecode_unloaded (s : State) (off : Operand) : (s.acceptDecode off).unloaded = s.unloaded := rfl
@[simp] theorem State.acceptDecode_raster (s : State) (off : Operand) : (s.acceptDecode off).raster = [] := rfl
@[simp] theorem State.acceptDecode_offset (s : State) (off : Operand) : (s.acceptDecode off).offset = off := rfl
@[simp] theorem State.acceptDecode_st (s : State) (off : Operand) : (s.acceptDecode off).st = .busy := rfl
@[simp] theorem State.acceptDecode_fc (s : State) (off : Operand) : (s.acceptDecode off).fc = s.fc := rfl
@[simp] theorem State.acceptDecode_scan (s : State) (off : Operand) : (s.acceptDecode off).scan = 0 := rfl
@[simp] theorem State.acceptDecode_bufLen (s : State) (off : Operand) : (s.acceptDecode off).bufLen = s.bufLen := rfl
@[simp] theorem State.acceptDecode_pending (s : State) (off : Operand) : (s.acceptDecode off).pending = s.pending := rfl
@[simp] theorem State.acceptDecode_turns (s : State) (off : Operand) : (s.acceptDecode off).turns = s.turns := rfl
@[simp] theorem State.acceptDecode_responses (s : State) (off : Operand) : (s.acceptDecode off).responses = none :: s.responses := rfl

@[simp] theorem State.finishPair_mem (s : State) (n : Nat) (b0 b1 : Byte) : (s.finishPair n b0 b1).mem = s.mem := rfl
@[simp] theorem State.finishPair_unloaded (s : State) (n : Nat) (b0 b1 : Byte) : (s.finishPair n b0 b1).unloaded = s.unloaded := rfl
@[simp] theorem State.finishPair_raster (s : State) (n : Nat) (b0 b1 : Byte) : (s.finishPair n b0 b1).raster = writePair s.raster n b0 b1 := rfl
@[simp] theorem State.finishPair_offset (s : State) (n : Nat) (b0 b1 : Byte) : (s.finishPair n b0 b1).offset = s.offset := rfl
@[simp] theorem State.finishPair_st (s : State) (n : Nat) (b0 b1 : Byte) : (s.finishPair n b0 b1).st = if n + 1 = 1792 then .done else s.st := rfl
@[simp] theorem State.finishPair_fc (s : State) (n : Nat) (b0 b1 : Byte) : (s.finishPair n b0 b1).fc = s.fc := rfl
@[simp] theorem State.finishPair_scan (s : State) (n : Nat) (b0 b1 : Byte) : (s.finishPair n b0 b1).scan = BitVec.ofNat 11 (n + 1) := rfl
@[simp] theorem State.finishPair_bufLen (s : State) (n : Nat) (b0 b1 : Byte) : (s.finishPair n b0 b1).bufLen = s.bufLen := rfl
@[simp] theorem State.finishPair_pending (s : State) (n : Nat) (b0 b1 : Byte) : (s.finishPair n b0 b1).pending = s.pending := rfl
@[simp] theorem State.finishPair_turns (s : State) (n : Nat) (b0 b1 : Byte) : (s.finishPair n b0 b1).turns = s.turns := rfl
@[simp] theorem State.finishPair_responses (s : State) (n : Nat) (b0 b1 : Byte) : (s.finishPair n b0 b1).responses = s.responses := rfl

@[simp] theorem State.giveCommand_mem (s : State) (cw : Word) : (s.giveCommand cw).mem = s.mem := rfl
@[simp] theorem State.giveCommand_unloaded (s : State) (cw : Word) : (s.giveCommand cw).unloaded = s.unloaded := rfl
@[simp] theorem State.giveCommand_raster (s : State) (cw : Word) : (s.giveCommand cw).raster = s.raster := rfl
@[simp] theorem State.giveCommand_offset (s : State) (cw : Word) : (s.giveCommand cw).offset = s.offset := rfl
@[simp] theorem State.giveCommand_st (s : State) (cw : Word) : (s.giveCommand cw).st = s.st := rfl
@[simp] theorem State.giveCommand_fc (s : State) (cw : Word) : (s.giveCommand cw).fc = s.fc := rfl
@[simp] theorem State.giveCommand_scan (s : State) (cw : Word) : (s.giveCommand cw).scan = s.scan := rfl
@[simp] theorem State.giveCommand_bufLen (s : State) (cw : Word) : (s.giveCommand cw).bufLen = s.bufLen := rfl
@[simp] theorem State.giveCommand_pending (s : State) (cw : Word) : (s.giveCommand cw).pending = .command cw :: s.pending := rfl
@[simp] theorem State.giveCommand_responses (s : State) (cw : Word) : (s.giveCommand cw).responses = s.responses := rfl

@[simp] theorem State.powerUp_mem (n : BufLen) (u : Nat) : (State.powerUp n u).mem = [] := rfl
@[simp] theorem State.powerUp_unloaded (n : BufLen) (u : Nat) : (State.powerUp n u).unloaded = u := rfl
@[simp] theorem State.powerUp_raster (n : BufLen) (u : Nat) : (State.powerUp n u).raster = [] := rfl
@[simp] theorem State.powerUp_offset (n : BufLen) (u : Nat) : (State.powerUp n u).offset = 0 := rfl
@[simp] theorem State.powerUp_st (n : BufLen) (u : Nat) : (State.powerUp n u).st = .idle := rfl
@[simp] theorem State.powerUp_fc (n : BufLen) (u : Nat) : (State.powerUp n u).fc = .noFault := rfl
@[simp] theorem State.powerUp_scan (n : BufLen) (u : Nat) : (State.powerUp n u).scan = 0 := rfl
@[simp] theorem State.powerUp_bufLen (n : BufLen) (u : Nat) : (State.powerUp n u).bufLen = n := rfl
@[simp] theorem State.powerUp_pending (n : BufLen) (u : Nat) : (State.powerUp n u).pending = [] := rfl
@[simp] theorem State.powerUp_turns (n : BufLen) (u : Nat) : (State.powerUp n u).turns = [] := rfl
@[simp] theorem State.powerUp_responses (n : BufLen) (u : Nat) : (State.powerUp n u).responses = [] := rfl

/-! Reads of `MEM` and `RASTER` see only their own fields. -/

theorem State.byteAt_congr {s t : State} (h : t.mem = s.mem) (hu : t.unloaded = s.unloaded) (a : Nat) :
    t.byteAt a = s.byteAt a := by
  simp only [State.byteAt, h, hu]

theorem State.memRead_congr {s t : State} (h : t.mem = s.mem) (hu : t.unloaded = s.unloaded)
    (hb : t.bufLen = s.bufLen) (a : Nat) : t.memRead a = s.memRead a := by
  simp only [State.memRead, State.byteAt, h, hu, hb]

theorem State.cell_congr {s t : State} (h : t.raster = s.raster) (k : Nat) : t.cell k = s.cell k := by
  simp only [State.cell, h]

theorem State.memRead_of_lt {s : State} {a : Nat} (h : a < s.bufLen.val) : s.memRead a = some (s.byteAt a) := by
  simp only [State.memRead, h, if_true]

theorem State.memRead_of_ge {s : State} {a : Nat} (h : s.bufLen.val ≤ a) : s.memRead a = none := by
  simp only [State.memRead, Nat.not_lt.mpr h, if_false]

end Sys2Proof.Machine
end

