-- ==== Sys2Proof/Laws/Ops.lean ====
section
/-! SUPPORT. For each shared operation and each meaning, everything it can answer. -/
namespace Sys2Proof.Machine

open Sys2Proof Sys2Proof.Config

/-- An illegal command either is ignored (in `FAULT`) or raises `IllegalCommand` (R60). -/
theorem takeIllegal_eq (s : State) :
    s.takeIllegal = if s.st = .fault then s.respond none else s.raise .illegalCommand := by
  rw [State.takeIllegal]; cases s.st <;> rfl

/-- What `CR[n]` reads as, register by register (R91). -/
theorem readCR_eq_some {s : State} {n : Operand} {w : Word} (h : s.readCR n = some w) : n.toNat < 4 := by
  unfold State.readCR at h
  split_ifs at h <;> (subst n; decide)

theorem readCR_isSome {s : State} {n : Operand} (h : n.toNat < 4) : ∃ w, s.readCR n = some w := by
  unfold State.readCR
  split_ifs with h0 h1 h2 h3
  · exact ⟨_, rfl⟩
  · exact ⟨_, rfl⟩
  · exact ⟨_, rfl⟩
  · exact ⟨_, rfl⟩
  · have h0' : n.toNat ≠ 0 := fun h => h0 (BitVec.eq_of_toNat_eq h)
    have h1' : n.toNat ≠ 1 := fun h => h1 (BitVec.eq_of_toNat_eq h)
    have h2' : n.toNat ≠ 2 := fun h => h2 (BitVec.eq_of_toNat_eq h)
    have h3' : n.toNat ≠ 3 := fun h => h3 (BitVec.eq_of_toNat_eq h)
    omega

/-- `blockFits` is the check of R75. -/
@[simp] theorem blockFits_iff (off : Operand) (n : BufLen) :
    blockFits off n = true ↔ off.toNat + 4096 ≤ n.val := by
  simp [blockFits]

/-- Everything `DECODE` can answer (R75). It never stops. -/
theorem execDecode_cases (off : Operand) (s : State) :
    (s.st = .fault ∧ execDecode off s = .next (s.respond none)) ∨
    (s.st = .busy ∧ execDecode off s = .next (s.raise .busy)) ∨
    ((s.st = .idle ∨ s.st = .done) ∧ off.toNat + 4096 ≤ s.bufLen.val ∧
      execDecode off s = .next (s.acceptDecode off)) ∨
    ((s.st = .idle ∨ s.st = .done) ∧ s.bufLen.val < off.toNat + 4096 ∧
      execDecode off s = .next (s.raise .inputTooShort)) := by
  unfold execDecode
  by_cases hf : off.toNat + 4096 ≤ s.bufLen.val
  · have := (blockFits_iff off s.bufLen).mpr hf
    cases hst : s.st <;> simp [hf, this]
  · have : blockFits off s.bufLen = false := by simp [← Bool.not_eq_true, hf]
    cases hst : s.st <;> simp [hf, this] <;> omega

/-- Everything `RDPIX` can answer (R90). -/
theorem execRdpix_cases (k : Operand) (s : State) :
    (s.st = .fault ∧ execRdpix k s = .next (s.respond none)) ∨
    ((s.st = .idle ∨ s.st = .busy) ∧ execRdpix k s = .next (s.raise .notReady)) ∨
    (s.st = .done ∧ 14336 ≤ k.toNat ∧ execRdpix k s = .next (s.raise .badIndex)) ∨
    (s.st = .done ∧ k.toNat < 14336 ∧ ∃ v, s.cell k.toNat = some v ∧
      execRdpix k s = .next (s.respond (some (v.setWidth 32)))) ∨
    (s.st = .done ∧ k.toNat < 14336 ∧ s.cell k.toNat = none ∧
      execRdpix k s = .fault (.cellHasNoValue k.toNat)) := by
  unfold execRdpix
  cases hst : s.st
  · simp
  · simp
  · by_cases hk : 14336 ≤ k.toNat
    · simp [hk]
    · cases hc : s.cell k.toNat <;> simp [hk] <;> omega
  · simp

/-- Everything `RDCR` can answer (R91). It never stops. -/
theorem execRdcr_cases (n : Operand) (s : State) :
    (n.toNat < 4 ∧ ∃ w, s.readCR n = some w ∧ execRdcr n s = .next (s.respond (some w))) ∨
    (¬ n.toNat < 4 ∧ execRdcr n s = .next s.takeIllegal) := by
  unfold execRdcr
  by_cases h : n.toNat < 4
  · obtain ⟨w, hw⟩ := readCR_isSome (s := s) h
    exact .inl ⟨h, w, hw, by rw [hw]⟩
  · refine .inr ⟨h, ?_⟩
    cases hr : s.readCR n with
    | none => rfl
    | some w => exact absurd (readCR_eq_some hr) h

/-- Everything the block step can answer (R76). -/
theorem blockStep_cases (s : State) :
    (s.scan.toNat < 1792 ∧ s.offset.toNat + 2 * s.scan.toNat + 1 < s.bufLen.val ∧
      blockStep s = .next (s.finishPair s.scan.toNat
        (s.byteAt (s.offset.toNat + 2 * s.scan.toNat)) (s.byteAt (s.offset.toNat + 2 * s.scan.toNat + 1)))) ∨
    (s.scan.toNat < 1792 ∧ s.bufLen.val ≤ s.offset.toNat + 2 * s.scan.toNat + 1 ∧
      blockStep s = .fault (.sourceReadOutOfRange (s.offset.toNat + 2 * s.scan.toNat))) ∨
    (1792 ≤ s.scan.toNat ∧ blockStep s = .fault .scanPastEnd) := by
  unfold blockStep
  rw [pairAddr_eq]
  by_cases hn : s.scan.toNat < 1792
  · by_cases h1 : s.offset.toNat + 2 * s.scan.toNat + 1 < s.bufLen.val
    · refine .inl ⟨hn, h1, ?_⟩
      rw [if_pos hn, State.memRead_of_lt h1, State.memRead_of_lt (by omega)]
    · refine .inr (.inl ⟨hn, by omega, ?_⟩)
      rw [if_pos hn, State.memRead_of_ge (a := s.offset.toNat + 2 * s.scan.toNat + 1) (by omega)]
      cases s.memRead (s.offset.toNat + 2 * s.scan.toNat) <;> rfl
  · exact .inr (.inr ⟨by omega, by rw [if_neg hn]⟩)

/-- Everything a host write can answer (R43). -/
theorem hostWrite_cases (s : State) (a : Nat) (bytes : List Byte) :
    (s.st = .busy ∧ s.hostWrite a bytes = .refused .sourceWriteWhileBusy) ∨
    (s.st ≠ .busy ∧ (bytes = [] ∨ a + bytes.length ≤ s.bufLen.val) ∧
      s.hostWrite a bytes = .next { s with mem := storeSetFrom s.mem a bytes }) ∨
    (s.st ≠ .busy ∧ bytes ≠ [] ∧ s.bufLen.val < a + bytes.length ∧
      s.hostWrite a bytes = .fault (.hostWriteOutOfRange (max a s.bufLen.val))) := by
  unfold State.hostWrite
  by_cases hb : s.st = .busy
  · simp [hb]
  · by_cases h : bytes = [] ∨ a + bytes.length ≤ s.bufLen.val
    · refine .inr (.inl ⟨hb, h, ?_⟩)
      cases hst : s.st <;> first | exact absurd hst hb | exact if_pos h
    · refine .inr (.inr ⟨hb, fun he => h (.inl he), by omega, ?_⟩)
      cases hst : s.st <;> first | exact absurd hst hb | exact if_neg h

/-! Every operation over the memories keeps their canonical form. -/

theorem hostWrite_keeps_wf {s t : State} {a : Nat} {bytes : List Byte} (h : s.hostWrite a bytes = .next t)
    (hm : Memory.wf s.mem) : Memory.wf t.mem := by
  rcases hostWrite_cases s a bytes with ⟨_, h'⟩ | ⟨_, _, h'⟩ | ⟨_, _, _, h'⟩
  · rw [h'] at h; cases h
  · rw [h'] at h; cases h; exact storeSetFrom_wf _ hm _
  · rw [h'] at h; cases h

theorem reset_mem_wf : Memory.wf State.reset.mem := List.Pairwise.nil

theorem reset_raster_wf : storeWf State.reset.raster := List.Pairwise.nil

theorem finishPair_keeps_raster_wf {s : State} (h : storeWf s.raster) (n : Nat) (b0 b1 : Byte) :
    storeWf (s.finishPair n b0 b1).raster := writePair_wf h n b0 b1

/-- The cells after row pair `n` is decoded (R76). -/
theorem finishPair_cell (s : State) (n : Nat) (b0 b1 : Byte) (k : Nat) :
    (s.finishPair n b0 b1).cell k = if cellPair k = n then some (rowPixel b0 b1 (cellCol k)) else s.cell k :=
  storeGet_writePair _ _ _ _ _

/-- The bytes of `MEM` after consecutive bytes are written (R43). -/
theorem byteAt_write (s : State) (a : Nat) (bytes : List Byte) (x : Nat) :
    ({ s with mem := storeSetFrom s.mem a bytes } : State).byteAt x =
      if a ≤ x ∧ x < a + bytes.length then (bytes[x - a]?).getD (Config.unloadedByte s.unloaded x) else s.byteAt x := by
  simp only [State.byteAt, storeGet_storeSetFrom]
  split_ifs <;> rfl

end Sys2Proof.Machine
end

