-- ==== Sys2Proof/Laws/PerInstr.lean ====
section
/-! SUPPORT. Statements made per instruction: the word of an instruction is its `op` above its operand, and no bit of
the operand is lost (R57, R58, R62). -/
namespace Sys2Proof.Laws.FieldsKept

open Sys2Proof

/-- The encoded word's two fields are the instruction's operation code and operand, and the word is the number
`op×2^24 + imm`. -/
def Statement (i : Instr) : Prop :=
  opField (encode i) = opcodeOf i ∧ immField (encode i) = operandOf i ∧
    (encode i).toNat = (opcodeOf i).toNat * 2 ^ 24 + (operandOf i).toNat

/-- It holds of every instruction, because the encoder puts the fields together in one place. -/
theorem of_encode (i : Instr) : Statement i :=
  ⟨opField_append _ _, immField_append _ _, toNat_op_append _ _⟩

end Sys2Proof.Laws.FieldsKept

theorem Sys2Proof.Laws.FieldsKept.decode (off : Sys2Proof.Operand) :
    Sys2Proof.Laws.FieldsKept.Statement (.decode off) := Sys2Proof.Laws.FieldsKept.of_encode _

theorem Sys2Proof.Laws.FieldsKept.rdpix (k : Sys2Proof.Operand) :
    Sys2Proof.Laws.FieldsKept.Statement (.rdpix k) := Sys2Proof.Laws.FieldsKept.of_encode _

theorem Sys2Proof.Laws.FieldsKept.rdcr (n : Sys2Proof.Operand) :
    Sys2Proof.Laws.FieldsKept.Statement (.rdcr n) := Sys2Proof.Laws.FieldsKept.of_encode _
end

