-- ==== Sys2Proof/Laws/Port.lean ====
section
/-! SUPPORT. What a command, a host move and a step can answer: the inversion lemmas every invariant is proved from. -/
namespace Sys2Proof.Machine

open Sys2Proof Sys2Proof.Config

/-- What taking a command that answers a next state can have done: the block ignored it or answered it, raised a
fault, or, for `DECODE` alone, accepted a decode. The second argument is the instruction, none for an illegal word. -/
inductive Taken (s : State) (i : Option Instr) : State → Prop where
  | respond (r : Option Word) : Taken s i (s.respond r)
  | raise (f : FaultCode) (hf : f ≠ .noFault) (hst : s.st ≠ .fault) : Taken s i (s.raise f)
  | accept (off : Operand) (hi : i = some (.decode off)) (hst : s.st = .idle ∨ s.st = .done)
      (hfit : off.toNat + 4096 ≤ s.bufLen.val) : Taken s i (s.acceptDecode off)

theorem takeIllegal_taken (s : State) (i : Option Instr) : Taken s i s.takeIllegal := by
  rw [takeIllegal_eq]
  split_ifs with h
  · exact .respond none
  · exact .raise _ (by decide) h

/-- The inversion lemma of `exec`. -/
theorem exec_taken {i : Instr} {s t : State} (h : exec i s = .next t) : Taken s (some i) t := by
  cases i with
  | decode off =>
    have h : execDecode off s = .next t := h
    rcases execDecode_cases off s with ⟨_, e⟩ | ⟨hb, e⟩ | ⟨hst, hfit, e⟩ | ⟨hst, _, e⟩ <;> rw [e] at h <;> cases h
    · exact .respond none
    · exact .raise _ (by decide) (by simp [hb])
    · exact .accept off rfl hst hfit
    · exact .raise _ (by decide) (by rcases hst with h | h <;> simp [h])
  | rdpix k =>
    have h : execRdpix k s = .next t := h
    rcases execRdpix_cases k s with ⟨_, e⟩ | ⟨hst, e⟩ | ⟨hst, _, e⟩ | ⟨_, _, v, _, e⟩ | ⟨_, _, _, e⟩ <;>
      rw [e] at h <;> cases h
    · exact .respond none
    · exact .raise _ (by decide) (by rcases hst with h | h <;> simp [h])
    · exact .raise _ (by decide) (by simp [hst])
    · exact .respond _
  | rdcr n =>
    have h : execRdcr n s = .next t := h
    rcases execRdcr_cases n s with ⟨_, w, _, e⟩ | ⟨_, e⟩ <;> rw [e] at h <;> cases h
    · exact .respond _
    · exact takeIllegal_taken s _

/-- The instruction a command word is, none for an illegal word. -/
def wordInstr (cw : Word) : Option Instr :=
  match decodeWord cw with
  | .ok i => some i
  | .error _ => none

/-- The inversion lemma of taking a command word. -/
theorem takeCommand_taken {cw : Word} {s t : State} (h : takeCommand cw s = .next t) : Taken s (wordInstr cw) t := by
  unfold takeCommand at h
  unfold wordInstr
  cases hd : decodeWord cw with
  | ok i => rw [hd] at h; exact exec_taken h
  | error e => rw [hd] at h; cases h; exact takeIllegal_taken s _

/-- `RDCR 1`, the command of `RDSTAT` and `WAIT`, answers the status word in every state (R91). -/
theorem takeCommand_status (s : State) :
    takeCommand statusCommand s = .next (s.respond (some (statusWord s.st s.fc))) := by
  have h : decodeWord statusCommand = .ok (.rdcr 1) := by decide
  rw [takeCommand, h]
  rfl

/-- The status word shows `BUSY` exactly in `BUSY` (R14). -/
theorem showsBusy_statusWord (st : St) (fc : FaultCode) : showsBusy (statusWord st fc) = decide (st = .busy) := by
  cases st <;> cases fc <;> decide

/-- One poll of `WAIT` (R63), in full. -/
theorem takePoll_eq (s : State) : takePoll s = .next
    { s.respond (some (statusWord s.st s.fc)) with
      pending := if s.st = .busy then .poll :: s.pending else s.pending } := by
  rw [takePoll, takeCommand_status]
  simp only [State.respond, pollAgain, showsBusy_statusWord, decide_eq_true_eq]
  split_ifs <;> rfl

/-- What a host move that answers a next state can have done. -/
inductive Moved (s : State) : HostMove → State → Prop where
  | command (cw : Word) {t : State} (h : Taken s (wordInstr cw) t) : Moved s (.command cw) t
  | reset : Moved s .reset s.applyReset
  | write (a : Nat) (bytes : List Byte) (hst : s.st ≠ .busy)
      (hr : bytes = [] ∨ a + bytes.length ≤ s.bufLen.val) :
      Moved s (.write a bytes) { s with mem := storeSetFrom s.mem a bytes }
  | poll : Moved s .poll { s.respond (some (statusWord s.st s.fc)) with
      pending := if s.st = .busy then .poll :: s.pending else s.pending }

/-- The inversion lemma of a host move. -/
theorem takeMove_moved {m : HostMove} {s t : State} (h : takeMove m s = .next t) : Moved s m t := by
  cases m with
  | command cw => exact .command cw (takeCommand_taken h)
  | reset => cases h; exact .reset
  | write a bytes =>
    have h : s.hostWrite a bytes = .next t := h
    rcases hostWrite_cases s a bytes with ⟨_, e⟩ | ⟨hst, hr, e⟩ | ⟨_, _, _, e⟩ <;> rw [e] at h <;> cases h
    exact .write a bytes hst hr
  | poll =>
    have h : takePoll s = .next t := h
    rw [takePoll_eq] at h
    cases h
    exact .poll

/-- What a step that answers a next state can have done: a block step, a host move, or nothing (R128, R113). -/
inductive Stepped (s : State) : State → Prop where
  | block (ts : List Agent) {t : State} (hst : s.st = .busy)
      (hts : ts = s.turns ∨ s.turns = .block :: ts)
      (h : blockStep { s with turns := ts } = .next t) : Stepped s t
  | host (m : HostMove) (ms : List HostMove) (ts : List Agent) {t : State} (hp : s.pending = m :: ms)
      (hbusy : s.st = .busy → s.turns = .host :: ts) (hquiet : s.st ≠ .busy → ts = s.turns)
      (h : takeMove m { s with pending := ms, turns := ts } = .next t) : Stepped s t
  | nothing (hst : s.st ≠ .busy) (hp : s.pending = []) : Stepped s s

/-- The inversion lemma of the step. -/
theorem step_stepped {s t : State} (h : step s = .next t) : Stepped s t := by
  have h : transition s = .next t := h
  unfold transition at h
  by_cases hb : s.st = .busy
  · simp only [hb] at h
    unfold busyTransition at h
    split at h
    · exact .block s.turns hb (.inl rfl) h
    · exact .block s.turns hb (.inl rfl) h
    · rename_i hts
      exact .block _ hb (.inr hts) h
    · rename_i hp hts
      exact .host _ _ _ hp (fun _ => hts) (fun hq => absurd hb hq) h
  · have h' : quietTransition s = .next t := by
      cases hst : s.st <;> first | exact absurd hst hb | (simp only [hst] at h; exact h)
    unfold quietTransition at h'
    split at h'
    · rename_i hp
      cases h'
      exact .nothing hb hp
    · rename_i hp
      exact .host _ _ _ hp (fun hq => absurd hq hb) (fun _ => rfl) h'

/-- While `ST ≠ BUSY` a step is a host move or nothing. -/
theorem step_of_quiet {s : State} (h : s.st ≠ .busy) : step s = quietTransition s := by
  rw [step, transition]
  cases hst : s.st <;> first | exact absurd hst h | rfl

/-- While `ST = BUSY` the interleaving decides. -/
theorem step_of_busy {s : State} (h : s.st = .busy) : step s = busyTransition s := by
  rw [step, transition, h]

/-- The instruction a word is taken as, when it is `DECODE off`, is what the decoder reads. -/
theorem decodeWord_of_wordInstr {cw : Word} {i : Instr} (h : wordInstr cw = some i) : decodeWord cw = .ok i := by
  unfold wordInstr at h
  split at h
  · rename_i h'; cases h; exact h'
  · cases h

/-- What a host move can have done, made from the state with the move (and, in `BUSY`, the turn) taken off. -/
inductive HostStep (s : State) (ms : List HostMove) (ts : List Agent) : State → Prop where
  | respond (cw : Word) (r : Option Word) (hp : s.pending = .command cw :: ms) :
      HostStep s ms ts (({ s with pending := ms, turns := ts } : State).respond r)
  | raise (cw : Word) (f : FaultCode) (hp : s.pending = .command cw :: ms) (hf : f ≠ .noFault) (hst : s.st ≠ .fault) :
      HostStep s ms ts (({ s with pending := ms, turns := ts } : State).raise f)
  | accept (cw : Word) (off : Operand) (hp : s.pending = .command cw :: ms) (ha : s.acceptsNext off) :
      HostStep s ms ts (({ s with pending := ms, turns := ts } : State).acceptDecode off)
  | reset (hp : s.pending = .reset :: ms) (hr : s.resetsNext) :
      HostStep s ms ts ({ s with pending := ms, turns := ts } : State).applyReset
  | write (a : Nat) (bytes : List Byte) (hp : s.pending = .write a bytes :: ms) (hw : s.writesNext)
      (hst : s.st ≠ .busy) (hr : bytes = [] ∨ a + bytes.length ≤ s.bufLen.val) :
      HostStep s ms ts { s with pending := ms, turns := ts, mem := storeSetFrom s.mem a bytes }
  | poll (hp : s.pending = .poll :: ms) :
      HostStep s ms ts { s with
        responses := some (statusWord s.st s.fc) :: s.responses
        turns := ts
        pending := if s.st = .busy then .poll :: ms else ms }

/-- The inversion lemma of a host move made as a step. -/
theorem hostStep_of_takeMove {s t : State} {m : HostMove} {ms : List HostMove} {ts : List Agent}
    (hp : s.pending = m :: ms) (hb : s.st = .busy → s.turns = .host :: ts)
    (hm : takeMove m { s with pending := ms, turns := ts } = .next t) : HostStep s ms ts t := by
  cases takeMove_moved hm with
  | command cw ht =>
    cases ht with
    | respond r => exact .respond cw r hp
    | raise f hf hst => exact .raise cw f hp hf hst
    | accept off hi hst hfit => exact .accept cw off hp ⟨hst, hfit, cw, ms, hp, decodeWord_of_wordInstr hi⟩
  | reset => exact .reset hp ⟨ms, hp, fun h => ⟨ts, hb h⟩⟩
  | write a bytes hst hr => exact .write a bytes hp ⟨a, bytes, ms, hp, fun h => ⟨ts, hb h⟩⟩ hst hr
  | poll => exact .poll hp

/-- Everything a step that answers a next state can have done, in full: the state after a block step, nothing, or one
of the host moves. -/
theorem step_cases {s t : State} (h : step s = .next t) :
    (∃ ts, s.st = .busy ∧ (ts = s.turns ∨ s.turns = .block :: ts) ∧
      blockStep { s with turns := ts } = .next t ∧ s.scan.toNat < 1792 ∧
      s.offset.toNat + 2 * s.scan.toNat + 1 < s.bufLen.val ∧
      t = ({ s with turns := ts } : State).finishPair s.scan.toNat
        (s.byteAt (s.offset.toNat + 2 * s.scan.toNat)) (s.byteAt (s.offset.toNat + 2 * s.scan.toNat + 1))) ∨
    (s.st ≠ .busy ∧ s.pending = [] ∧ t = s) ∨
    (∃ ms ts, (s.st = .busy → s.turns = .host :: ts) ∧ (s.st ≠ .busy → ts = s.turns) ∧ HostStep s ms ts t) := by
  cases step_stepped h with
  | block ts hst hts hb =>
    refine .inl ⟨ts, hst, hts, hb, ?_⟩
    rcases blockStep_cases { s with turns := ts } with ⟨h1, h2, e⟩ | ⟨h1, h2, e⟩ | ⟨h1, e⟩ <;> rw [e] at hb <;>
      cases hb
    exact ⟨h1, h2, rfl⟩
  | nothing hst hp => exact .inr (.inl ⟨hst, hp, rfl⟩)
  | host m ms ts hp hb hq hm => exact .inr (.inr ⟨ms, ts, hb, hq, hostStep_of_takeMove hp hb hm⟩)

/-! The transition that is about to be made is the one that is made. -/

/-- When a block step is about to be taken, the step is the block step, a turn taken off or not. -/
theorem step_of_blockNext {s : State} (h : s.blockNext) : ∃ ts, step s = blockStep { s with turns := ts } := by
  obtain ⟨hb, h⟩ := h
  rw [step_of_busy hb, busyTransition]
  rcases h with hp | ht | ⟨ts, ht⟩
  · refine ⟨s.turns, ?_⟩
    show _ = blockStep s
    rw [hp]
  · refine ⟨s.turns, ?_⟩
    show _ = blockStep s
    rw [ht]
    cases s.pending <;> rfl
  · by_cases hp : s.pending = []
    · refine ⟨s.turns, ?_⟩
      show _ = blockStep s
      rw [hp]
    · obtain ⟨m, ms, hp⟩ := List.exists_cons_of_ne_nil hp
      exact ⟨ts, by rw [hp, ht]⟩

/-- When no block step is about to be taken, a step that answers a next state is a host move or nothing. -/
theorem step_cases_of_not_blockNext {s t : State} (hn : ¬ s.blockNext) (h : step s = .next t) :
    t = s ∨ ∃ ms ts, HostStep s ms ts t := by
  by_cases hb : s.st = .busy
  · rw [step_of_busy hb] at h
    unfold busyTransition at h
    split at h
    · exact absurd ⟨hb, .inl ‹_›⟩ hn
    · exact absurd ⟨hb, .inr (.inl ‹_›)⟩ hn
    · exact absurd ⟨hb, .inr (.inr ⟨_, ‹_›⟩)⟩ hn
    · exact .inr ⟨_, _, hostStep_of_takeMove ‹_› (fun _ => ‹_›) h⟩
  · rw [step_of_quiet hb] at h
    unfold quietTransition at h
    split at h
    · cases h; exact .inl rfl
    · exact .inr ⟨_, s.turns, hostStep_of_takeMove ‹_› (fun h' => absurd h' hb) h⟩

/-- When a reset is about to be applied, the step is the reset. -/
theorem step_of_resetsNext {s : State} (h : s.resetsNext) :
    ∃ ms ts, step s = .next ({ s with pending := ms, turns := ts } : State).applyReset := by
  obtain ⟨ms, hp, ht⟩ := h
  by_cases hb : s.st = .busy
  · obtain ⟨ts, ht⟩ := ht hb
    exact ⟨ms, ts, by rw [step_of_busy hb, busyTransition, hp, ht]; rfl⟩
  · exact ⟨ms, s.turns, by rw [step_of_quiet hb, quietTransition, hp]; rfl⟩

/-- When a `DECODE` is about to be accepted, the step is its acceptance. -/
theorem step_of_acceptsNext {s : State} {off : Operand} (h : s.acceptsNext off) :
    ∃ ms, step s = .next (({ s with pending := ms } : State).acceptDecode off) := by
  obtain ⟨hst, hfit, cw, ms, hp, hd⟩ := h
  refine ⟨ms, ?_⟩
  rw [step_of_quiet (by rcases hst with h | h <;> simp [h]), quietTransition, hp]
  have e : takeMove (.command cw) { s with pending := ms } = execDecode off { s with pending := ms } := by
    rw [takeMove, takeCommand, hd]; rfl
  refine e.trans ?_
  rcases execDecode_cases off { s with pending := ms } with ⟨h', _⟩ | ⟨h', _⟩ | ⟨_, _, e⟩ | ⟨_, h', _⟩
  · rcases hst with h | h <;> simp [h] at h'
  · rcases hst with h | h <;> simp [h] at h'
  · exact e
  · exact absurd hfit (Nat.not_le.mpr h')

end Sys2Proof.Machine
end

