-- ==== Sys2Proof/Laws/Run.lean ====
section
/-! SUPPORT. Runs of several steps, taken apart. -/
namespace Sys2Proof.Machine

open Sys2Proof

@[simp] theorem runFor_zero (s : State) : runFor 0 s = .next s := rfl

/-- A run whose first step answers a next state goes on from there, for any machine. -/
theorem run_succ_of_next {M : Host.Core} {n : Nat} {s t : M.State} (h : M.step s = .next t) :
    M.run (n + 1) s = M.run n t := by
  simp only [Host.Core.run, h]

/-- If a run of `n + 1` steps answers a next state, its first step did, for any machine. -/
theorem run_succ_inv {M : Host.Core} {n : Nat} {s t : M.State} (h : M.run (n + 1) s = .next t) :
    ∃ s', M.step s = .next s' ∧ M.run n s' = .next t := by
  cases hs : M.step s with
  | next s' => exact ⟨s', rfl, by simpa only [Host.Core.run, hs] using h⟩
  | fault r => simp only [Host.Core.run, hs] at h; cases h
  | refused r => simp only [Host.Core.run, hs] at h; cases h

/-- A run whose first step answers a next state goes on from there. -/
theorem runFor_next {n : Nat} {s t : State} (h : step s = .next t) : runFor (n + 1) s = runFor n t :=
  run_succ_of_next (M := core) h

/-- A run of `a + b` steps whose first `a` answer a next state goes on from there. -/
theorem runFor_add {a : Nat} (b : Nat) : ∀ {s t : State}, runFor a s = .next t → runFor (a + b) s = runFor b t := by
  induction a with
  | zero => intro s t h; cases h; rw [Nat.zero_add]
  | succ a ih =>
    intro s t h
    obtain ⟨s', h1, h2⟩ := run_succ_inv (M := core) h
    have e : a + 1 + b = a + b + 1 := by omega
    rw [e]
    exact (runFor_next h1).trans (ih h2)

end Sys2Proof.Machine
end

