-- ==== Sys2Proof/Tests/Slice0.lean ====
section
/-! SUPPORT. The model's own tests. Expected results are those of `spec/95_test_vectors.md` (S, V, P, named at each test)
or of a rule's own example; then, for each statement with hypotheses, a concrete witness that meets them. -/
namespace Sys2Proof.Machine.Tests

open Sys2Proof Sys2Proof.Machine Sys2Proof.Config

/-! ## Well-formedness: one check, with the first term it refuses (R58) -/

theorem test_wf_refuses_rdcr_4 : wellFormed (.rdcr 4) = false := by decide
theorem test_wf_accepts_rdcr_3 : wellFormed (.rdcr 3) = true := by decide

/-! ## Decoding: words written out from the encoding of R57 and R59, bit by bit -/

theorem test_decode_DECODE : decodeWord (0b00000001_000000010010001101000101#32) = .ok (.decode 0x012345#24) := rfl
theorem test_decode_RDPIX : decodeWord (0b00000010_000000000011011111111111#32) = .ok (.rdpix 14335#24) := rfl
theorem test_decode_RDCR : decodeWord (0b00000011_000000000000000000000010#32) = .ok (.rdcr 2#24) := rfl
theorem test_decode_rdcr_reserved : decodeWord 0x03000004#32 = .error (.rdcrOperand 4#24) := rfl
theorem test_decode_zero : decodeWord 0#32 = .error (.reservedOp 0#8) := rfl
theorem test_table_word : decodeTableWord 32 0x02FFFFFF = some (.rdpix 0xFFFFFF#24) := rfl
theorem test_encode_V4 : encode (.decode 0x1F000#24) = 0x0101F000#32 := by decide

/-! ## The function layer -/

/-- V2, the rows that tell plane order and bit order apart. -/
theorem test_rowDecode_V2 :
    rowDecode 0x00#8 0xFF#8 = [2, 2, 2, 2, 2, 2, 2, 2] ∧ rowDecode 0xAA#8 0x55#8 = [1, 2, 1, 2, 1, 2, 1, 2] ∧
    rowDecode 0x80#8 0x00#8 = [1, 0, 0, 0, 0, 0, 0, 0] ∧ rowDecode 0x01#8 0x80#8 = [2, 0, 0, 0, 0, 0, 0, 1] ∧
    rowDecode 0xF0#8 0xCC#8 = [3, 3, 1, 1, 2, 2, 0, 0] ∧ rowDecode 0x12#8 0x34#8 = [0, 0, 2, 3, 0, 2, 1, 0] := by
  decide

/-- V3 forward, the rows for tiles (7, 8) and (13, 15). -/
theorem test_forward_V3 :
    cellIndex 7 8 3 5 = 7621 ∧ pairAddr 0 963 = 0x786 ∧ cellIndex 13 15 7 7 = 14335 ∧ pairAddr 0 1791 = 0xDFE ∧
    pairCell 136 = 1032 := by decide

/-- V3 inverse, cells 5000 and 1033. -/
theorem test_inverse_V3 :
    cellAddr 0 5000 = 1054 ∧ cellCol 5000 = 0 ∧ cellTileId 5000 = 4 * 16 + 1 ∧ cellRow 5000 = 7 ∧
    cellAddr 0 1033 = 272 ∧ cellCol 1033 = 1 := by decide

/-! ## The commands, one step each on a small state -/

/-- The next state of an outcome, if it is one: outcomes compared by `decide`. -/
def nextOf : Host.Outcome State Fault Refusal → Option State
  | .next t => some t
  | .fault _ => none
  | .refused _ => none

theorem eq_next {o : Host.Outcome State Fault Refusal} {t : State} (h : nextOf o = some t) : o = .next t := by
  cases o <;> simp_all [nextOf]

/-- The machine at power-up with 4608 bytes (V4). -/
def small : State := State.powerUp 4608

/-- V4: `DECODE 512` fits 4608 bytes with nothing to spare. -/
theorem test_decode_accepted_V4 : nextOf (exec (.decode 512) small) =
    some { small with offset := 512, st := .busy, responses := [none] } := by decide

/-- V4: `DECODE 513` is one byte too far; `OFFSET` and `SCAN` stay 0. -/
theorem test_decode_too_short_V4 : nextOf (exec (.decode 513) small) =
    some { small with st := .fault, fc := .inputTooShort, responses := [none] } := by decide

/-- V5: in `IDLE`, the state check comes before the operand check. -/
theorem test_rdpix_not_ready_V5 : nextOf (exec (.rdpix 0xFFFFFF) small) =
    some { small with st := .fault, fc := .notReady, responses := [none] } := by decide

/-- R90: in `DONE` a cell is returned as a word. -/
theorem test_rdpix_returns_cell : nextOf (exec (.rdpix 14335) { small with st := .done, raster := [(14335, 2)] }) =
    some { small with st := .done, raster := [(14335, 2)], responses := [some 2] } := by decide

/-- V5: in `FAULT` with `FC = 1`, `RDCR 1` returns 0x13. -/
theorem test_rdcr_status_V5 : nextOf (exec (.rdcr 1) { small with st := .fault, fc := .inputTooShort }) =
    some { small with st := .fault, fc := .inputTooShort, responses := [some 0x13] } := by decide

/-- V6: `RDCR 3` with the largest buffer needs bit 24. -/
theorem test_rdcr_buflen_V6 : (State.powerUp 16777216).readCR 3 = some 0x01000000#32 := rfl

/-- V5: an illegal word in `FAULT` is ignored and `FC` stays 1. -/
theorem test_illegal_in_fault_V5 : nextOf (takeCommand 0#32 { small with st := .fault, fc := .inputTooShort }) =
    some { small with st := .fault, fc := .inputTooShort, responses := [none] } := by decide

/-! ## The block step, host moves, scheduling -/

/-- V7: one step at `SCAN = 136` writes the cells 1032 to 1039. -/
theorem test_step_V7 : nextOf (step { State.powerUp 8192 with
      st := .busy, offset := 0x1000, scan := 136, mem := [(0x1110, 0x55#8), (0x1111, 0xAA#8)] }) =
    some { State.powerUp 8192 with
      st := .busy, offset := 0x1000, scan := 137, mem := [(0x1110, 0x55#8), (0x1111, 0xAA#8)]
      raster := [(1032, 2), (1033, 1), (1034, 2), (1035, 1), (1036, 2), (1037, 1), (1038, 2), (1039, 1)] } := by decide

/-- V7: the step that finds `SCAN = 1791` ends the decode. -/
theorem test_last_step_V7 : nextOf (step { State.powerUp 4096 with
      st := .busy, scan := 1791, mem := [(3582, 0x01#8), (3583, 0x80#8)] }) =
    some { State.powerUp 4096 with
      st := .done, scan := 1792, mem := [(3582, 0x01#8), (3583, 0x80#8)]
      raster := [(14328, 2), (14329, 0), (14330, 0), (14331, 0), (14332, 0), (14333, 0), (14334, 0), (14335, 1)] } := by decide

/-- P5: `.mem 3: FF` in `DONE` changes one byte and leaves the raster. -/
theorem test_host_write_P5 : nextOf (step { small with st := .done, raster := [(0, 0)], pending := [.write 3 [0xFF#8]] }) =
    some { small with st := .done, raster := [(0, 0)], mem := [(3, 0xFF#8)] } := by decide

/-- A write keeps the canonical form: a byte written again is listed once. -/
theorem test_store_rewrite : storeSet [(1, 7#8), (3, 8#8)] 3 9#8 = [(1, 7#8), (3, 9#8)] := rfl

/-- U3: no host write while `ST = BUSY`. -/
theorem test_host_write_busy : step { small with st := .busy, pending := [.write 3 [0xFF#8]], turns := [.host] } =
    .refused .sourceWriteWhileBusy := rfl

/-- V5: `.reset` from `FAULT`. -/
theorem test_reset_V5 : nextOf (step { small with st := .fault, fc := .inputTooShort, pending := [.reset] }) =
    some small := by decide

/-- R63: a poll in `BUSY` is made again. -/
theorem test_poll_busy : nextOf (step { small with st := .busy, pending := [.poll], turns := [.host] }) =
    some { small with st := .busy, pending := [.poll], responses := [some 1] } := by decide

/-- The word of `RDCR 3` is the first instruction after reset (V6: 0x00020000). -/
theorem test_first_instruction_V6 : nextOf (step (State.reset.withFetchWord 32 0x03000003)) =
    some { State.reset with responses := [some 0x00020000] } := by decide

/-! ## The assembler -/

/-- P2: `RDXY 8, 15` is `RDPIX 1928`, word 0x02000788. -/
theorem test_rdxy_P2 : (Line.rdxy 8 15).moves = [.command 0x02000788#32] := by decide

/-- P4: `DECODESLOT 29` is `DECODE 0x1F000`, word 0x0101F000. -/
theorem test_slot_P4 : (Line.decodeSlot 29).moves = [.command 0x0101F000#32] := by decide

/-- Lines of P1, P2 and P4 as text. -/
theorem test_text : (assembleText
    ".buflen 8192\n.reset\n.mem 0x1110: 55 AA ; a comment\nDECODE 0x1000\nWAIT\nRDXY 8, 8\n.word 0x00000000\n".toList).toOption =
    some ⟨8192, [.reset, .write 0x1110 [0x55#8, 0xAA#8], .command 0x01001000#32, .poll, .command 0x02000408#32,
      .command 0#32]⟩ := by decide

/-- R62: a decimal or `0x` hexadecimal natural; a hexadecimal digit is no decimal one. -/
theorem test_number : number "0x1f7C".toList = some 0x1F7C ∧ number "131072".toList = some 131072 ∧
    number "1A".toList = none := by decide

/-- R62: a mnemonic is upper case. -/
theorem test_text_lower_case : assembleText "DECODE 0\nrdcr 1".toList = .error (.badSyntax 2) := rfl

/-- R64: `.buflen` comes before anything else. -/
theorem test_buflen_late : assembleText ".reset\n.buflen 4096".toList = .error .bufLenNotFirst := rfl

/-- R64: `.expect` after `WAIT` is about the poll that ended it. -/
theorem test_expect : expectsMet [.decode 0, .expect none, .wait, .expect (some 2)]
    [none, some 1, some 1, some 2] none = true := by decide

/-! ## Witnesses: concrete states that meet the hypotheses of the statements -/

/-- The smallest machine that can decode, at power-up. -/
def idleS : State := State.powerUp 4096

/-- The same, just after `DECODE 0` was accepted. -/
def busyS : State := idleS.acceptDecode 0

/-- The first `n` cells of the raster of that machine's source. -/
@[irreducible] def firstCells (n : Nat) : List (Nat × Pixel) :=
  (List.range n).map fun k => (k, rasterPixel idleS.byteAt 0 k)

/-- The same, with the decode finished. -/
def doneS : State := { idleS with st := .done, scan := 1792, raster := firstCells NPIX }

/-- The same, with a fault recorded. -/
def faultS : State := idleS.raise .notReady

theorem firstCells_get {n k : Nat} (h : k < n) : storeGet (firstCells n) k = some (rasterPixel idleS.byteAt 0 k) := by
  rw [firstCells, storeGet_map, if_pos (List.mem_range.mpr h)]

theorem firstCells_wf (n : Nat) : storeWf (firstCells n) := by
  rw [firstCells]
  exact storeWf_map_range _ _

theorem firstCells_lt {n : Nat} {e : Nat × Pixel} (he : e ∈ firstCells n) : e.1 < n := by
  rw [firstCells] at he
  obtain ⟨j, hj, rfl⟩ := List.mem_map.mp he
  exact List.mem_range.mp hj

theorem doneS_cell (k : Nat) (h : k < 14336) : doneS.cell k = some (rasterPixel idleS.byteAt 0 k) := firstCells_get h

theorem block_fits : (0#24).toNat + BLOCK_BYTES ≤ (4096 : BufLen).val := by decide
theorem scan_full : (1792#11).toNat = NPAIRS := by decide

theorem idleS_inv : Inv idleS :=
  ⟨List.Pairwise.nil, by simp [idleS], List.Pairwise.nil, by simp [idleS], by simp [idleS],
    fun _ => ⟨rfl, rfl, fun _ => rfl⟩, by simp [idleS], by simp [idleS], by simp [idleS]⟩

theorem busyS_inv : Inv busyS :=
  ⟨List.Pairwise.nil, by simp [busyS, idleS], List.Pairwise.nil, by simp [busyS], by simp [busyS, idleS],
    by simp [busyS], fun _ => ⟨by simp [busyS], block_fits, fun k _ => by simp [busyS, State.cell]⟩,
    by simp [busyS], by simp [busyS]⟩

theorem doneS_inv : Inv doneS where
  memWf := List.Pairwise.nil
  memInRange := by simp [doneS, idleS]
  rasterWf := firstCells_wf _
  rasterInRange := fun _ he => firstCells_lt he
  faultCode := by simp [doneS, idleS]
  idle := by simp [doneS]
  busy := by simp [doneS]
  done := fun _ => ⟨scan_full, block_fits, fun k hk => by rw [doneS_cell k hk]; rfl⟩
  scanBound := Nat.le_of_eq scan_full

theorem faultS_inv : Inv faultS :=
  ⟨List.Pairwise.nil, by simp [faultS, idleS], List.Pairwise.nil, by simp [faultS, idleS], by simp [faultS],
    by simp [faultS], by simp [faultS], by simp [faultS], by simp [faultS, idleS]⟩

/-- The host's moves, turns and responses take no part in the invariants. -/
theorem inv_host {s : State} (h : Inv s) (ms : List HostMove) (ts : List Agent) :
    Inv { s with pending := ms, turns := ts } :=
  ⟨h.memWf, h.memInRange, h.rasterWf, h.rasterInRange, h.faultCode, h.idle, h.busy, h.done, h.scanBound⟩

theorem busyS_agrees (ms : List HostMove) (ts : List Agent) :
    RasterAgrees { busyS with pending := ms, turns := ts } := by
  intro _ k v h
  simp [State.cell, busyS] at h

theorem doneS_agrees (ms : List HostMove) (ts : List Agent) :
    RasterAgrees { doneS with pending := ms, turns := ts } := by
  intro _ k v h
  have hk : k < 14336 := firstCells_lt (mem_of_storeGet h)
  have h' : doneS.cell k = some v := h
  rw [doneS_cell k hk] at h'
  cases h'
  rfl

theorem witness_EncodeThenDecode : WellFormed (.rdcr 3) ∧ WellFormed (.decode 0xFFFFFF) ∧ WellFormed (.rdpix 0) := by
  decide
theorem witness_DecodeThenEncode : decodeWord 0x03000003#32 = .ok (.rdcr 3) := rfl
theorem witness_OpcodeMapRows :
    0x01FFFFFF#32 &&& 0xFF000000#32 = 0x01000000#32 ∧ 0x02000000#32 &&& 0xFF000000#32 = 0x02000000#32 ∧
    0x03000003#32 &&& 0xFFFFFFFC#32 = 0x03000000#32 := by decide
theorem witness_IllegalWordsFault : IllegalWord 0#32 ∧ IllegalWord 0x04000000#32 ∧ IllegalWord 0xFFFFFFFF#32 ∧
    IllegalWord 0x03000004#32 ∧ ¬ IllegalWord 0x03000003#32 ∧ idleS.st ≠ .fault ∧ faultS.st = .fault := by decide
theorem witness_TileDecodeFormula :
    (∀ (j : Nat) (hj : j < 16), (Vector.replicate 16 0xFF#8)[j] = 0xFF#8) ∧
    (∀ (j : Nat) (hj : j < 16), (Vector.ofFn fun i : Fin 16 => if i.val % 2 = 0 then 0x55#8 else 0xAA#8)[j] =
      if j % 2 = 0 then 0x55#8 else 0xAA#8) :=
  ⟨fun _ _ => by simp, fun _ _ => by simp⟩
theorem witness_RasterDecodeFormula (M : Nat → Byte) (off : Nat) :
    ∀ (j : Nat) (hj : j < 16), (Vector.ofFn fun i : Fin 16 => M (off + (13 * 16 + 15) * 16 + i.val))[j] =
      M (off + (13 * 16 + 15) * 16 + j) := fun _ _ => by simp
theorem witness_RasterDependsOnFootprint : (∀ a, 5 ≤ a → a < 5 + 3584 →
    (fun _ => 0#8) a = (fun a => if 3589 ≤ a then 1#8 else 0#8) a) := by
  intro a _ h
  exact (if_neg (by omega)).symm
theorem witness_DecodeCommand : faultS.st = .fault ∧ busyS.st = .busy ∧ (idleS.st = .idle ∨ idleS.st = .done) ∧
    idleS.bufLen.val < (1#24).toNat + 4096 ∧ (0#24).toNat + 4096 ≤ idleS.bufLen.val := by decide
theorem witness_RdpixCommand : Inv doneS ∧ doneS.st = .done ∧ (14335#24).toNat < 14336 ∧ 14336 ≤ (14336#24).toNat :=
  ⟨doneS_inv, rfl, by decide, by decide⟩
theorem witness_RdcrCommand : Inv busyS ∧ busyS.st = .busy ∧ (3#24).toNat < 4 ∧
    (0x03000004#32).extractLsb' 24 8 = 3#8 ∧ (0x03000004#32).extractLsb' 2 22 ≠ 0#22 ∧
    idleS.st ≠ .fault ∧ exec (.decode 1) idleS = .next (idleS.raise .inputTooShort) ∧
    (idleS.raise .inputTooShort).st = .fault :=
  ⟨busyS_inv, rfl, by decide, by decide, by decide, by decide, eq_next (by decide), rfl⟩
theorem witness_DecodeFrame : exec (.decode 0) idleS = .next busyS ∧ exec (.decode 0) busyS = .next (busyS.raise .busy) ∧
    busyS.st = .busy := ⟨eq_next (by decide), rfl, rfl⟩
theorem witness_RdpixFrame : (∃ t, exec (.rdpix 14335) doneS = .next t) ∧ doneS.st = .done ∧
    exec (.rdpix 0) faultS = .next (faultS.respond none) := by
  refine ⟨?_, rfl, rfl⟩
  rcases execRdpix_cases 14335 doneS with ⟨h, _⟩ | ⟨h, _⟩ | ⟨_, h, _⟩ | ⟨_, _, v, _, e⟩ | ⟨_, _, h, _⟩
  · cases h
  · rcases h with h | h <;> cases h
  · exact absurd h (by decide)
  · exact ⟨_, e⟩
  · rw [doneS_cell _ (by decide)] at h; cases h
theorem witness_RdcrFrame : (2#24).toNat < 4 ∧ exec (.rdcr 2) busyS = .next (busyS.respond (some 0)) := ⟨by decide, rfl⟩
theorem witness_FaultPriority : Inv idleS ∧ Inv busyS ∧ busyS.st = .busy ∧ Inv doneS ∧ Inv faultS :=
  ⟨idleS_inv, busyS_inv, rfl, doneS_inv, faultS_inv⟩
theorem witness_FaultEntry : idleS.st ≠ .fault ∧ takeCommand 0#32 idleS = .next (idleS.raise .illegalCommand) ∧
    (idleS.raise .illegalCommand).st = .fault ∧ faultS.st = .fault ∧ step faultS = .next faultS ∧ ¬ faultS.resetsNext := by
  refine ⟨by decide, rfl, rfl, rfl, rfl, ?_⟩
  rintro ⟨ms, h, _⟩; cases h
theorem witness_FaultIsSticky : faultS.st = .fault ∧ (3#24).toNat < 4 ∧
    (∀ n : Operand, n.toNat < 4 → (0x01000000#32 : Word) ≠ encode (.rdcr n)) ∧ step faultS = .next faultS ∧
    ¬ faultS.resetsNext := by
  refine ⟨rfl, by decide, fun n _ h => ?_, rfl, ?_⟩
  · have h1 := congrArg opField h
    rw [encode, opField_append] at h1
    have h2 : opField 0x01000000#32 ≠ 3#8 := by decide
    exact h2 h1
  · rintro ⟨ms, h, _⟩; cases h
theorem witness_OnlyResetLeavesFault : faultS.st = .fault ∧
    step { faultS with pending := [.reset] } = .next { idleS with responses := [none] } ∧ idleS.st ≠ .fault := by
  refine ⟨rfl, rfl, by decide⟩
theorem witness_StateGraph : Inv { idleS with pending := [.command 0x01000000#32], turns := [] } ∧
    step { idleS with pending := [.command 0x01000000#32], turns := [] } = .next busyS :=
  ⟨inv_host idleS_inv _ _, eq_next (by decide)⟩
theorem witness_BlockStepRowPair : busyS.st = .busy ∧ busyS.scan.toNat ≤ 1791 ∧
    busyS.offset.toNat + 4096 ≤ busyS.bufLen.val ∧ busyS.pending = [] ∧
    ({ busyS with scan := 1791 } : State).scan.toNat ≤ 1791 := by decide
theorem witness_CompletionStep : ({ busyS with scan := 1791 } : State).scan.toNat = 1791 ∧ busyS.st = .busy ∧
    busyS.offset.toNat + 4096 ≤ busyS.bufLen.val ∧ doneS.st = .done ∧ doneS.pending = [] ∧
    Inv doneS ∧ step doneS = .next doneS :=
  ⟨by decide, rfl, by decide, rfl, rfl, doneS_inv, rfl⟩
theorem witness_BigStep : (idleS.st = .idle ∨ idleS.st = .done) ∧ (0#24).toNat + 4096 ≤ idleS.bufLen.val ∧
    idleS.pending = [] := by decide
theorem witness_PollsDoNotDisturbDecode :
    Inv { busyS with pending := [.poll, .command (encode (.rdcr 2))], turns := [.host] } ∧
    RasterAgrees { busyS with pending := [.poll, .command (encode (.rdcr 2))], turns := [.host] } ∧
    busyS.st = .busy ∧ ∀ m ∈ [HostMove.poll, .command (encode (.rdcr 2))],
      m = .poll ∨ ∃ n : Operand, n.toNat < 4 ∧ m = .command (encode (.rdcr n)) := by
  refine ⟨inv_host busyS_inv _ _, busyS_agrees _ _, rfl, fun m hm => ?_⟩
  rcases List.mem_cons.mp hm with h | h
  · exact .inl h
  · exact .inr ⟨2, by decide, List.mem_singleton.mp h⟩
theorem witness_OrderIndependence : (List.range 1792).reverse.Perm (List.range 1792) := List.reverse_perm _
theorem witness_SameBytesSameRaster :
    (idleS.st = .idle ∨ idleS.st = .done) ∧ (0#24).toNat + 4096 ≤ idleS.bufLen.val ∧ idleS.pending = [] ∧
    (∀ a, (0#24).toNat ≤ a → a < (0#24).toNat + 3584 →
      idleS.byteAt a = ({ idleS with mem := [(4000, 1#8)] } : State).byteAt a) ∧
    exec (.decode 0) idleS = .next busyS ∧
    exec (.decode 0) { idleS with mem := [(4000, 1#8)] } = .next { busyS with mem := [(4000, 1#8)] } := by
  refine ⟨.inl rfl, by decide, rfl, fun a _ h => ?_, eq_next (by decide), eq_next (by decide)⟩
  have h' : ¬ 4000 = a := by simp at h; omega
  simp [State.byteAt, storeGet, idleS, h']
theorem witness_StepKeepsInv : Inv { idleS with pending := [.command 0x01000000#32], turns := [] } ∧
    step { idleS with pending := [.command 0x01000000#32], turns := [] } = .next busyS := witness_StateGraph
theorem witness_StepKeepsRasterAgreement : RasterAgrees { busyS with pending := [.command 0x03000002#32], turns := [.host] } ∧
    ¬ (busyS.st = .done ∧ State.writesNext { busyS with pending := [.command 0x03000002#32], turns := [.host] }) ∧
    step { busyS with pending := [.command 0x03000002#32], turns := [.host] } = .next (busyS.respond (some 0)) :=
  ⟨busyS_agrees _ _, fun h => (by cases h.1), eq_next (by decide)⟩
theorem witness_ReadBackIsRasterDecode : Inv doneS ∧ RasterAgrees doneS ∧ doneS.st = .done ∧ (14335#24).toNat < 14336 :=
  ⟨doneS_inv, doneS_agrees _ _, rfl, by decide⟩
theorem witness_ReadWholeRaster (ms : List HostMove)
    (h : ms = (List.range 14336).map fun k => .command (encode (.rdpix (BitVec.ofNat 24 k)))) :
    Inv { doneS with pending := ms, turns := [] } ∧ RasterAgrees { doneS with pending := ms, turns := [] } ∧
    doneS.st = .done ∧ ({ doneS with pending := ms, turns := [] } : State).pending =
      (List.range 14336).map fun k => .command (encode (.rdpix (BitVec.ofNat 24 k))) :=
  ⟨inv_host doneS_inv _ _, doneS_agrees _ _, rfl, h⟩
theorem witness_OnlyHostWritesStop : Inv busyS ∧ ¬ busyS.writesNext :=
  ⟨busyS_inv, by rintro ⟨_, _, _, h, _⟩; cases h⟩
theorem witness_OnlyHostWritesChangeMem : step { small with pending := [.write 3 [0xFF#8]] } =
    .next { small with mem := [(3, 0xFF#8)] } := rfl
theorem witness_OffsetWrittenAtAcceptance : step { small with pending := [.command 0x01000200#32] } =
    .next (small.acceptDecode 512) ∧ (small.acceptDecode 512).offset ≠ small.offset := ⟨eq_next (by decide), by decide⟩
/-- Each of the three transitions that the two statements tell apart, and one that is none of them. -/
theorem witness_RasterDiscardedOnlyByDecodeAndReset :
    (({ small with st := .done, raster := [(0, 1)], pending := [.command 0x01000000#32] } : State).acceptsNext 0 ∧
      step { small with st := .done, raster := [(0, 1)], pending := [.command 0x01000000#32] } =
        .next (small.acceptDecode 0)) ∧
    (({ small with st := .fault, raster := [(0, 1)], pending := [.reset] } : State).resetsNext ∧
      step { small with st := .fault, raster := [(0, 1)], pending := [.reset] } = .next small) ∧
    (busyS.blockNext ∧ ∃ t, step busyS = .next t) ∧
    (¬ small.resetsNext ∧ (∀ off, ¬ small.acceptsNext off) ∧ ¬ small.blockNext ∧ step small = .next small) := by
  refine ⟨⟨⟨.inr rfl, by decide, _, [], rfl, rfl⟩, eq_next (by decide)⟩, ⟨⟨[], rfl, by simp⟩, eq_next (by decide)⟩,
    ⟨⟨rfl, .inl rfl⟩, ?_⟩, ?_, ?_, ?_, rfl⟩
  · rw [step_of_busy rfl]
    rcases blockStep_cases busyS with ⟨_, _, e⟩ | ⟨_, h, _⟩ | ⟨h, _⟩
    · exact ⟨_, e⟩
    · exact absurd h (by decide)
    · exact absurd h (by decide)
  · rintro ⟨ms, h, _⟩; cases h
  · rintro off ⟨_, _, cw, ms, h, _⟩; cases h
  · rintro ⟨h, _⟩; cases h
theorem witness_ScanIsTheSequencer : Inv busyS ∧ busyS.blockNext ∧ (∃ t, step busyS = .next t) ∧
    Inv { idleS with pending := [.reset], turns := [] } ∧
    ({ idleS with pending := [.reset], turns := [] } : State).resetsNext ∧
    Inv { idleS with pending := [.command 0x01000000#32], turns := [] } ∧
    ({ idleS with pending := [.command 0x01000000#32], turns := [] } : State).acceptsNext 0 ∧
    Inv faultS ∧ ¬ faultS.blockNext ∧ ¬ faultS.resetsNext ∧ (∀ off, ¬ faultS.acceptsNext off) := by
  refine ⟨busyS_inv, ⟨rfl, .inl rfl⟩, witness_RasterDiscardedOnlyByDecodeAndReset.2.2.1.2, inv_host idleS_inv _ _,
    ⟨[], rfl, fun h => by cases h⟩, inv_host idleS_inv _ _, ⟨.inl rfl, by decide, _, [], rfl, rfl⟩, faultS_inv, ?_, ?_, ?_⟩
  · rintro ⟨h, _⟩; cases h
  · rintro ⟨ms, h, _⟩; cases h
  · rintro off ⟨_, _, cw, ms, h, _⟩; cases h
theorem witness_ResetMove : idleS.st ≠ .busy ∧ ({ idleS with pending := [.reset] } : State).pending = .reset :: [] ∧
    ({ busyS with pending := [.reset], turns := [.host] } : State).st = .busy ∧
    ({ busyS with pending := [.reset], turns := [.host] } : State).turns = .host :: [] := by
  decide
theorem witness_HostWriteMove : doneS.st ≠ .busy ∧ 4095 + [0xFF#8].length ≤ doneS.bufLen.val ∧ busyS.st = .busy :=
  ⟨by simp [doneS], by decide, rfl⟩
theorem witness_Interleaving : busyS.st = .busy ∧ ({ busyS with pending := [.poll] } : State).pending = .poll :: [] ∧
    ({ busyS with turns := [.block] } : State).turns = .block :: [] ∧
    ({ busyS with turns := [.host] } : State).turns = .host :: [] ∧ busyS.turns = [] ∧ busyS.pending = [] ∧
    idleS.st ≠ .busy ∧ idleS.pending = [] := by decide
theorem witness_RdpixWithoutPolling (k : Operand) (ts : List Agent) :
    Inv { busyS with pending := [.command (encode (.rdpix k))], turns := List.replicate 3 .block ++ .host :: ts } ∧
    RasterAgrees { busyS with pending := [.command (encode (.rdpix k))], turns := [] } ∧
    busyS.st = .busy ∧ busyS.scan.toNat + 3 < 1792 ∧ busyS.turns = [] :=
  ⟨inv_host busyS_inv _ _, busyS_agrees _ _, rfl, by decide, rfl⟩
theorem witness_RunBoundDecreases : step { small with pending := [.reset] } = .next small ∧
    ¬ State.ended { small with pending := [.reset] } ∧ small.ended := by
  refine ⟨rfl, fun h => (by cases h.1), rfl, by decide⟩
theorem witness_EveryRunEnds : Inv { busyS with pending := [.poll, .reset], turns := [.host] } ∧
    ∀ a bytes, HostMove.write a bytes ∉ [HostMove.poll, .reset] :=
  ⟨inv_host busyS_inv _ _, by simp⟩
theorem witness_StepRunsDecodedInstruction :
    ({ idleS with pending := [.command 0x02000000#32] } : State).pending = .command 0x02000000#32 :: [] ∧
    decodeWord 0x02000000#32 = .ok (.rdpix 0) ∧ idleS.st ≠ .busy ∧ busyS.st = .busy ∧
    ({ busyS with turns := [.host] } : State).turns = .host :: [] := ⟨rfl, rfl, by decide, rfl, rfl⟩
theorem witness_GivenWordIsNext : 0x03000001 < 2 ^ 32 ∧ decodeTableWord 32 0x03000001 = some (.rdcr 1) :=
  ⟨by decide, rfl⟩
theorem witness_ProgramsAssembleInOrder :
    List.Forall₂ (fun l ms => assembleLines [l] = .ok ms) [Line.reset, .wait, .rdxy 127 111]
      [[.reset], [.poll], [.command 0x020037FF#32]] ∧
    (∀ l' ∈ [Line.reset], ∃ ms, assembleLines [l'] = .ok ms) ∧
    assembleLines [.decodeSlot 30] = .error (.operandOutOfRange (.decodeSlot 30)) ∧
    assembleLines [.rdxy 128 0] = .error (.operandOutOfRange (.rdxy 128 0)) ∧ 2 ^ 24 < 2 ^ 24 + 1 ∧
    (∀ l ∈ [Line.blank, .reset], l.inRange = true) ∧ (∃ l ∈ [Line.blank, .reset], l ≠ .blank) :=
  ⟨.cons rfl (.cons rfl (.cons rfl .nil)), by simp [assembleLines, Line.inRange], rfl, rfl, by decide, by decide, .reset,
    by simp, by simp⟩

/-! The statements whose hypotheses are ranges of numbers, each at the top of its ranges. -/

theorem witness_RowDecodeFormula : 7 < 8 := by decide
theorem witness_RasterIndexBijection : 13 < 14 ∧ 15 < 16 ∧ 7 < 8 ∧ 14335 < 14336 := by decide
theorem witness_RowPairNumbering : 1791 < 1792 ∧ 7 < 8 ∧ 14335 < 14336 := by decide
theorem witness_ReadFootprint : 0 < 1792 ∧ 1791 < 1792 ∧ 0 ≠ 1791 ∧ 29 < 30 := by decide
theorem witness_SlotsFitReferenceBuffer : 29 < 30 ∧ slotOffset 29 = 0x1F000 := by decide
theorem witness_ResetState : 4095 < (4096 : BufLen).val ∧ (4096 : BufLen).val ≤ 4096 := by decide
theorem witness_CommandLinesAssemble : 2 ^ 24 - 1 < 2 ^ 24 ∧ 2 ^ 24 ≤ 2 ^ 24 ∧ 3 ≤ 3 ∧ 3 < 4 := by decide
theorem witness_PseudoCommands : 29 ≤ 29 ∧ 127 ≤ 127 ∧ 111 ≤ 111 ∧ 29 < 30 ∧ (127 < 128 ∨ 111 < 0) := by decide
theorem witness_DirectivesAssemble : (∀ b ∈ [0, 255], b < 256) ∧ (∃ b ∈ [255, 256], 256 ≤ b) ∧
    2 ^ 32 - 1 < 2 ^ 32 ∧ 2 ^ 32 ≤ 2 ^ 32 := by decide

end Sys2Proof.Machine.Tests
end

section
/-! PROOFS. What a step leaves of `MEM` and `BUFLEN`. The contents of `MEM` are read through three fields: the listed
bytes `mem`, the power-up number `unloaded` and the length `bufLen`. -/
namespace Sys2Proof.Machine

open Sys2Proof

section HostStep
variable {s t : State} {ms : List HostMove} {ts : List Agent}

/-- No host move changes `BUFLEN` (R16). -/
theorem HostStep.bufLen_eq (h : HostStep s ms ts t) : t.bufLen = s.bufLen := by
  cases h <;> rfl

/-- No host move changes the number of the power-up (log 2). -/
theorem HostStep.unloaded_eq (h : HostStep s ms ts t) : t.unloaded = s.unloaded := by
  cases h <;> rfl

/-- Of the host moves only a write outside `BUSY` changes the listed bytes of `MEM` (R43). -/
theorem HostStep.mem_eq_or_writesNext (h : HostStep s ms ts t) :
    t.mem = s.mem ∨ s.writesNext ∧ s.st ≠ .busy := by
  cases h with
  | write a bytes hp hw hst hr => exact .inr ⟨hw, hst⟩
  | respond | raise | accept | reset | poll => exact .inl rfl

end HostStep

section Step
variable {s t : State}

/-- No step changes `BUFLEN` (R16). -/
theorem step_bufLen_eq (h : step s = .next t) : t.bufLen = s.bufLen := by
  obtain ⟨ts, _, _, _, _, _, rfl⟩ | ⟨_, _, rfl⟩ | ⟨ms, ts, _, _, hm⟩ := step_cases h
  · exact State.finishPair_bufLen _ _ _ _
  · rfl
  · exact hm.bufLen_eq

/-- No step changes the number of the power-up (log 2). -/
theorem step_unloaded_eq (h : step s = .next t) : t.unloaded = s.unloaded := by
  obtain ⟨ts, _, _, _, _, _, rfl⟩ | ⟨_, _, rfl⟩ | ⟨ms, ts, _, _, hm⟩ := step_cases h
  · exact State.finishPair_unloaded _ _ _ _
  · rfl
  · exact hm.unloaded_eq

/-- Only a host write outside `BUSY` changes the listed bytes of `MEM` (R6, R11). -/
theorem step_mem_eq_or_writesNext (h : step s = .next t) : t.mem = s.mem ∨ s.writesNext ∧ s.st ≠ .busy := by
  obtain ⟨ts, _, _, _, _, _, rfl⟩ | ⟨_, _, rfl⟩ | ⟨ms, ts, _, _, hm⟩ := step_cases h
  · exact .inl (State.finishPair_mem _ _ _ _)
  · exact .inl rfl
  · exact hm.mem_eq_or_writesNext

end Step

/-- Settles O38: the fields that `MEM` is read through are kept by every step but a host write. -/
theorem onlyHostWritesChangeMem : Obligations.OnlyHostWritesChangeMem := fun _ _ h =>
  ⟨step_bufLen_eq h, (step_mem_eq_or_writesNext h).imp_left fun hmem =>
    State.memRead_congr hmem (step_unloaded_eq h) (step_bufLen_eq h)⟩

end Sys2Proof.Machine
end

section
/-! PROOFS. The registers `ST`, `OFFSET` and `SCAN`: what power-up leaves in them, and the five ways a step can treat
them (10_state.md sections 3, 4 and 7). -/
namespace Sys2Proof.Machine

open Sys2Proof Sys2Proof.Config

/-! Each control register as the host reads it (R91). -/

@[simp] theorem State.readCR_zero (s : State) : s.readCR 0 = some (s.offset.setWidth 32) := rfl
@[simp] theorem State.readCR_one (s : State) : s.readCR 1 = some (statusWord s.st s.fc) := rfl
@[simp] theorem State.readCR_two (s : State) : s.readCR 2 = some (s.scan.setWidth 32) := rfl
@[simp] theorem State.readCR_three (s : State) : s.readCR 3 = some (BitVec.ofNat 32 s.bufLen.val) := rfl

@[simp] theorem State.powerUp_cell (n : BufLen) (u k : Nat) : (State.powerUp n u).cell k = none := storeGet_nil k

/-- At power-up every byte of `MEM` is the free value of the power-up and its address (R21; log 2). -/
@[simp] theorem State.powerUp_byteAt (n : BufLen) (u a : Nat) : (State.powerUp n u).byteAt a = unloadedByte u a := by
  rw [State.byteAt, State.powerUp_mem, storeGet_nil, State.powerUp_unloaded, Option.getD_none]

/-- Settles O43: each register reads its field of the power-up state, and `MEM` has the free bytes below `n` alone. -/
theorem resetState : Obligations.ResetState := fun n u =>
  ⟨State.powerUp_st n u, State.powerUp_fc n u, State.readCR_zero _, State.readCR_one _, State.readCR_two _,
    State.readCR_three _, State.powerUp_cell n u,
    fun a ha => (State.memRead_of_lt ha).trans (congrArg some (State.powerUp_byteAt n u a)),
    fun _ ha => State.memRead_of_ge ha⟩

/-- The ways a step from `s` to `t` can treat the registers `ST`, `OFFSET` and `SCAN`, each with the transition that
does it (R13, R14, R15). -/
inductive RegStep (s t : State) : Prop where
  | keep (hst : t.st = s.st) (hoff : t.offset = s.offset) (hscan : t.scan = s.scan)
  | raise (hst : t.st = .fault) (hoff : t.offset = s.offset) (hscan : t.scan = s.scan)
  | reset (hr : s.resetsNext) (hst : t.st = .idle) (hoff : t.offset = 0) (hscan : t.scan = 0)
  | accept (off : Operand) (ha : s.acceptsNext off) (hst : t.st = .busy) (hoff : t.offset = off) (hscan : t.scan = 0)
  | block (hb : s.blockNext) (hlt : s.scan.toNat < 1792) (hst : t.st = if s.scan.toNat + 1 = 1792 then .done else .busy)
      (hoff : t.offset = s.offset) (hscan : t.scan.toNat = s.scan.toNat + 1)

section Step
variable {s t : State} {ms : List HostMove} {ts : List Agent} {off : Operand}

/-- `SCAN` is wide enough for the count of row pairs, so it does not wrap (R18). -/
theorem finishPair_scan_toNat {n : Nat} (h : n < 1792) (b0 b1 : Byte) :
    (s.finishPair n b0 b1).scan.toNat = n + 1 := by
  rw [State.finishPair_scan, BitVec.toNat_ofNat, Nat.mod_eq_of_lt (by omega)]

/-- A block step is the completion of the row pair `SCAN` names, with some two bytes (R76). -/
theorem blockStep_eq_finishPair (h : blockStep s = .next t) :
    s.scan.toNat < 1792 ∧ ∃ b0 b1, t = s.finishPair s.scan.toNat b0 b1 := by
  obtain ⟨hlt, _, e⟩ | ⟨_, _, e⟩ | ⟨_, e⟩ := blockStep_cases s <;> rw [e] at h <;> cases h
  exact ⟨hlt, _, _, rfl⟩

/-- A step before which a block step is next completes a row pair, a turn taken off or not. -/
theorem step_eq_finishPair (hb : s.blockNext) (h : step s = .next t) : s.scan.toNat < 1792 ∧
    ∃ ts b0 b1, t = ({ s with turns := ts } : State).finishPair s.scan.toNat b0 b1 := by
  obtain ⟨ts, e⟩ := step_of_blockNext hb
  obtain ⟨hlt, b0, b1, rfl⟩ := blockStep_eq_finishPair (e.symm.trans h)
  exact ⟨hlt, ts, b0, b1, rfl⟩

/-- A block step raises `SCAN` by one (R18). -/
theorem step_scan_of_blockNext (hb : s.blockNext) (h : step s = .next t) : t.scan.toNat = s.scan.toNat + 1 := by
  obtain ⟨hlt, ts, b0, b1, rfl⟩ := step_eq_finishPair hb h
  exact finishPair_scan_toNat hlt b0 b1

/-- Reset sets `SCAN` to 0 (R120). -/
theorem step_scan_of_resetsNext (hr : s.resetsNext) (h : step s = .next t) : t.scan = 0 := by
  obtain ⟨ms, ts, e⟩ := step_of_resetsNext hr
  cases e.symm.trans h
  exact State.applyReset_scan _

/-- The acceptance of a `DECODE` sets `SCAN` to 0 (R75). -/
theorem step_scan_of_acceptsNext (ha : s.acceptsNext off) (h : step s = .next t) : t.scan = 0 := by
  obtain ⟨ms, e⟩ := step_of_acceptsNext ha
  cases e.symm.trans h
  exact State.acceptDecode_scan _ _

theorem HostStep.regStep (h : HostStep s ms ts t) : RegStep s t := by
  cases h with
  | respond | write | poll => exact .keep rfl rfl rfl
  | raise => exact .raise rfl rfl rfl
  | reset _ hr => exact .reset hr rfl rfl rfl
  | accept _ off _ ha => exact .accept off ha rfl rfl rfl

/-- Every step that answers a next state treats the registers in one of the ways of `RegStep`. -/
theorem step_regStep (h : step s = .next t) : RegStep s t := by
  by_cases hb : s.blockNext
  · obtain ⟨hlt, ts, b0, b1, rfl⟩ := step_eq_finishPair hb h
    refine .block hb hlt ?_ rfl (finishPair_scan_toNat hlt b0 b1)
    rw [State.finishPair_st]
    exact congrArg (ite _ _) hb.1
  · obtain rfl | ⟨ms, ts, hm⟩ := step_cases_of_not_blockNext hb h
    · exact .keep rfl rfl rfl
    · exact hm.regStep

end Step

namespace RegStep
variable {s t : State}

/-- `ST` follows an arrow of the state graph (R14). -/
theorem stEdge_eq_true (h : RegStep s t) : stEdge s.st t.st = true := by
  cases h with
  | keep hst => rw [hst]; cases s.st <;> rfl
  | raise hst => rw [hst]; cases s.st <;> rfl
  | reset _ hst => rw [hst]; cases s.st <;> rfl
  | accept _ ha hst => rw [hst]; obtain ⟨hs | hs, _⟩ := ha <;> rw [hs] <;> rfl
  | block hb _ hst => rw [hst, hb.1]; split_ifs <;> rfl

/-- Reset alone enters `IDLE` (R120). -/
theorem idle_source (h : RegStep s t) (ht : t.st = .idle) : s.st = .idle ∨ s.resetsNext := by
  cases h with
  | keep hst => exact .inl (hst.symm.trans ht)
  | reset hr => exact .inr hr
  | raise hst | accept _ _ hst => rw [hst] at ht; cases ht
  | block _ _ hst => rw [hst] at ht; split_ifs at ht

/-- An accepted `DECODE` alone enters `BUSY` (R75). -/
theorem busy_source (h : RegStep s t) (ht : t.st = .busy) :
    s.st = .busy ∨ ∃ off, s.acceptsNext off ∧ t.offset = off := by
  cases h with
  | keep hst => exact .inl (hst.symm.trans ht)
  | accept off ha _ hoff => exact .inr ⟨off, ha, hoff⟩
  | block hb => exact .inl hb.1
  | raise hst | reset _ hst => rw [hst] at ht; cases ht

/-- The block step that completes the last row pair alone enters `DONE` (R77). -/
theorem done_source (h : RegStep s t) (ht : t.st = .done) :
    s.st = .done ∨ s.st = .busy ∧ s.scan.toNat = 1791 ∧ t.scan.toNat = 1792 := by
  cases h with
  | keep hst => exact .inl (hst.symm.trans ht)
  | block hb _ hst _ hscan =>
    rw [hst] at ht
    split_ifs at ht with hlast
    exact .inr ⟨hb.1, by omega, hscan.trans hlast⟩
  | raise hst | reset _ hst | accept _ _ hst => rw [hst] at ht; cases ht

/-- Only reset and the acceptance of a `DECODE` write `OFFSET` (R13). -/
theorem offset_source (h : RegStep s t) (hne : t.offset ≠ s.offset) :
    (s.resetsNext ∧ t.offset = 0) ∨ ∃ off, s.acceptsNext off ∧ t.offset = off := by
  cases h with
  | reset hr _ hoff => exact .inl ⟨hr, hoff⟩
  | accept off ha _ hoff => exact .inr ⟨off, ha, hoff⟩
  | keep _ hoff | raise _ hoff | block _ _ _ hoff => exact absurd hoff hne

/-- No other step than a block step, reset and the acceptance of a `DECODE` writes `SCAN` (R18). -/
theorem scan_eq (h : RegStep s t) (hb : ¬ s.blockNext) (hr : ¬ s.resetsNext) (ha : ∀ off, ¬ s.acceptsNext off) :
    t.scan = s.scan := by
  cases h with
  | keep _ _ hscan | raise _ _ hscan => exact hscan
  | reset hr' => exact absurd hr' hr
  | accept off ha' => exact absurd ha' (ha off)
  | block hb' => exact absurd hb' hb

/-- No step takes `SCAN` above the number of row pairs (R15). -/
theorem scan_le (h : RegStep s t) (hs : s.scan.toNat ≤ 1792) : t.scan.toNat ≤ 1792 := by
  cases h with
  | keep _ _ hscan | raise _ _ hscan => rwa [hscan]
  | reset _ _ _ hscan | accept _ _ _ _ hscan => rw [hscan]; exact Nat.zero_le _
  | block _ hlt _ _ hscan => omega

end RegStep

/-- Settles O25: each way a step can treat the registers is an arrow of the graph, with the transition that takes it. -/
theorem stateGraph : Obligations.StateGraph := by
  intro s t _ h
  have hreg := step_regStep h
  refine ⟨hreg.stEdge_eq_true, hreg.idle_source, hreg.busy_source, hreg.done_source, fun hs ht => ?_⟩
  have hedge := hreg.stEdge_eq_true
  rw [hs, ht] at hedge
  cases hedge

/-- Settles O39, by the ways a step can treat the registers. -/
theorem offsetWrittenAtAcceptance : Obligations.OffsetWrittenAtAcceptance := fun _ _ h => (step_regStep h).offset_source

/-- Settles O41: the transition that is next is the one that is made, and it decides what becomes of `SCAN`. -/
theorem scanIsTheSequencer : Obligations.ScanIsTheSequencer := fun _ _ hinv h =>
  ⟨fun hb => step_scan_of_blockNext hb h,
    fun hzero => hzero.elim (step_scan_of_resetsNext · h) fun ⟨_, ha⟩ => step_scan_of_acceptsNext ha h,
    (step_regStep h).scan_eq, (step_regStep h).scan_le hinv.scanBound⟩

end Sys2Proof.Machine
end

section
/-! PROOFS. The values the cells of `RASTER` hold (20_memory.md section 6, R38, R42): decoding one row pair gives its
cells the pixels of `RasterDecode`, so the order of the row pairs does not matter and every step keeps the agreement of
`RASTER` with the source. -/
namespace Sys2Proof.Machine

open Sys2Proof Sys2Proof.Config

/-! Row pairs decoded from a source `M` into a raster, in any order. -/

/-- A pixel in terms of the row pair that fills its cell (R55, R56). -/
theorem rasterPixel_eq (M : Nat → Byte) (off k : Nat) : rasterPixel M off k =
    rowPixel (M (off + 2 * cellPair k)) (M (off + 2 * cellPair k + 1)) (cellCol k) := by
  rw [rasterPixel, cellAddr_eq]

/-- Decode row pair `n` of the source `M` at `off` into a raster (R76). -/
def decodePair (M : Nat → Byte) (off : Nat) (raster : List (Nat × Pixel)) (n : Nat) : List (Nat × Pixel) :=
  writePair raster n (M (pairAddr off n)) (M (pairAddr off n + 1))

/-- Decoding row pair `n` gives its cells the pixels of `RasterDecode` and keeps every other cell. -/
theorem storeGet_decodePair (M : Nat → Byte) (off : Nat) (raster : List (Nat × Pixel)) (n k : Nat) :
    storeGet (decodePair M off raster n) k =
      if cellPair k = n then some (rasterPixel M off k) else storeGet raster k := by
  rw [decodePair, storeGet_writePair, pairAddr_eq]
  split_ifs with hn
  · rw [rasterPixel_eq, hn]
  · rfl

/-- A cell has its pixel of `RasterDecode` once its row pair is among those decoded, whenever that was. -/
theorem storeGet_foldl_decodePair (M : Nat → Byte) (off k : Nat) (l : List Nat) :
    ∀ raster, storeGet (l.foldl (decodePair M off) raster) k =
      if cellPair k ∈ l then some (rasterPixel M off k) else storeGet raster k := by
  induction l with
  | nil => intro raster; rfl
  | cons n l ih =>
    intro raster
    rw [List.foldl_cons, ih, storeGet_decodePair]
    by_cases hl : cellPair k ∈ l
    · rw [if_pos hl, if_pos (List.mem_cons_of_mem n hl)]
    · simp only [List.mem_cons, hl, or_false, if_false]

/-- Decoding row pairs keeps the raster's canonical form. -/
theorem foldl_decodePair_wf (M : Nat → Byte) (off : Nat) (l : List Nat) :
    ∀ {raster}, storeWf raster → storeWf (l.foldl (decodePair M off) raster) := by
  induction l with
  | nil => exact id
  | cons n l ih => exact fun h => ih (writePair_wf h n _ _)

/-- Settles O30: both sides are canonical stores, and a cell is in the raster exactly when its row pair is below 1792,
which no permutation changes. -/
theorem orderIndependence : Obligations.OrderIndependence := by
  intro M off l hl
  refine store_ext (foldl_decodePair_wf M off l List.Pairwise.nil) (storeWf_map_range _ _) fun k => ?_
  have hmem : cellPair k ∈ l ↔ k ∈ List.range 14336 := by
    rw [hl.mem_iff, List.mem_range, List.mem_range, cellPair_lt_iff]
  have hfold := storeGet_foldl_decodePair M off k l []
  simp only [hmem] at hfold
  exact hfold.trans (storeGet_map (rasterPixel M off) k _).symm

/-! Agreement of `RASTER` with the source (R19 item 4). -/

/-- A cell of an empty raster is `⊥` (R12). -/
theorem State.cell_of_raster_nil {s : State} (hraster : s.raster = []) (k : Nat) : s.cell k = none := by
  rw [State.cell, hraster, storeGet_nil]

namespace RasterAgrees
variable {s t : State}

/-- What agreement speaks of: the cells, the source, `OFFSET`, and whether `ST` is `BUSY` or `DONE`. -/
theorem of_kept (h : RasterAgrees s) (hst : t.st = .busy ∨ t.st = .done → s.st = .busy ∨ s.st = .done)
    (hraster : t.raster = s.raster) (hmem : t.mem = s.mem) (hu : t.unloaded = s.unloaded)
    (hoff : t.offset = s.offset) : RasterAgrees t := by
  intro ht k v hv
  have hbytes : t.byteAt = s.byteAt := funext (State.byteAt_congr hmem hu)
  rw [hbytes, hoff]
  exact h (hst ht) k v ((State.cell_congr hraster k).symm.trans hv)

/-- An empty raster agrees with any source. -/
theorem of_raster_nil (hraster : t.raster = []) : RasterAgrees t := by
  intro _ k v hv
  rw [State.cell_of_raster_nil hraster] at hv
  cases hv

/-- Decoding a row pair of the source keeps the agreement. -/
theorem finishPair (h : RasterAgrees s) (hst : s.st = .busy) (n : Nat) :
    RasterAgrees (s.finishPair n (s.byteAt (s.offset.toNat + 2 * n)) (s.byteAt (s.offset.toNat + 2 * n + 1))) := by
  intro _ k v hv
  show v = rasterPixel s.byteAt s.offset.toNat k
  rw [finishPair_cell] at hv
  split_ifs at hv with hn
  · cases hv
    rw [rasterPixel_eq, hn]
  · exact h (.inl hst) k v hv

/-- Every host move but a write in `DONE` keeps the agreement. -/
theorem hostStep {ms : List HostMove} {ts : List Agent} (h : RasterAgrees s) (hw : ¬ (s.st = .done ∧ s.writesNext))
    (hm : HostStep s ms ts t) : RasterAgrees t := by
  cases hm with
  | respond | poll => exact h.of_kept id rfl rfl rfl rfl
  | raise => exact fun ht => by simp at ht
  | accept | reset => exact of_raster_nil rfl
  | write a bytes _ hnext hbusy =>
    exact fun ht => ht.elim (absurd · hbusy) fun hdone => absurd ⟨hdone, hnext⟩ hw

end RasterAgrees

/-- Settles O34: a block step writes pixels of `RasterDecode`, and no host move but a write in `DONE` disturbs a cell,
the source or `OFFSET` without emptying the raster or leaving `BUSY` and `DONE`. -/
theorem stepKeepsRasterAgreement : Obligations.StepKeepsRasterAgreement := by
  intro s t h hw hstep
  obtain ⟨ts, hst, _, _, _, _, rfl⟩ | ⟨_, _, rfl⟩ | ⟨ms, ts, _, _, hm⟩ := step_cases hstep
  · have h' : RasterAgrees { s with turns := ts } := h.of_kept id rfl rfl rfl rfl
    exact h'.finishPair hst s.scan.toNat
  · exact h
  · exact h.hostStep hw hm

/-- In `DONE` the cell `RDPIX k` reads is there, and it is the pixel of `RasterDecode` (R38). -/
theorem cell_eq_rasterPixel_of_done {s : State} (hinv : Inv s) (hagree : RasterAgrees s) (hst : s.st = .done) {k : Nat}
    (hk : k < 14336) : s.cell k = some (rasterPixel s.byteAt s.offset.toNat k) := by
  obtain ⟨_, _, hcells⟩ := hinv.done hst
  obtain ⟨v, hv⟩ := Option.isSome_iff_exists.mp (hcells k hk)
  rw [hv, hagree (.inr hst) k v hv]

/-- `RDPIX` of a cell that holds a value answers it in `DONE` (R90). -/
theorem execRdpix_of_cell {s : State} {k : Operand} {v : Pixel} (hst : s.st = .done) (hk : k.toNat < 14336)
    (hv : s.cell k.toNat = some v) : execRdpix k s = .next (s.respond (some (v.setWidth 32))) := by
  simp only [execRdpix, hst, hv]
  exact if_neg (Nat.not_le.mpr hk)

/-- Settles O35: in `DONE` the cell is the pixel of `RasterDecode`, and `RDPIX` answers the cell. -/
theorem readBackIsRasterDecode : Obligations.ReadBackIsRasterDecode := fun _ _ hinv hagree hst hk =>
  execRdpix_of_cell hst hk (cell_eq_rasterPixel_of_done hinv hagree hst hk)

/-! What a step does to the cells of `RASTER` (R42). -/

section Step
variable {s t : State} {ms : List HostMove} {ts : List Agent} {off : Operand}

/-- Reset empties the raster (R120). -/
theorem step_raster_of_resetsNext (hr : s.resetsNext) (h : step s = .next t) : t.raster = [] := by
  obtain ⟨ms, ts, e⟩ := step_of_resetsNext hr
  cases e.symm.trans h
  exact State.applyReset_raster _

/-- The acceptance of a `DECODE` empties the raster (R75, R127). -/
theorem step_raster_of_acceptsNext (ha : s.acceptsNext off) (h : step s = .next t) : t.raster = [] := by
  obtain ⟨ms, e⟩ := step_of_acceptsNext ha
  cases e.symm.trans h
  exact State.acceptDecode_raster _ _

/-- A block step keeps a value in every cell that has one (R76). -/
theorem step_cell_isSome_of_blockNext (hb : s.blockNext) (h : step s = .next t) {k : Nat}
    (hk : (s.cell k).isSome) : (t.cell k).isSome := by
  obtain ⟨_, ts, b0, b1, rfl⟩ := step_eq_finishPair hb h
  rw [finishPair_cell]
  split_ifs
  · rfl
  · exact hk

/-- Of the host moves only reset and an accepted `DECODE` touch the raster. -/
theorem HostStep.raster_eq (h : HostStep s ms ts t) (hr : ¬ s.resetsNext) (ha : ∀ off, ¬ s.acceptsNext off) :
    t.raster = s.raster := by
  cases h with
  | respond | raise | write | poll => rfl
  | reset _ hr' => exact absurd hr' hr
  | accept _ off _ ha' => exact absurd ha' (ha off)

end Step

/-- Settles O40: the transition that is next is the one that is made, and it decides what becomes of the cells. -/
theorem rasterDiscardedOnlyByDecodeAndReset : Obligations.RasterDiscardedOnlyByDecodeAndReset := by
  intro s t h
  refine ⟨fun hdiscard k => ?_, fun hb _ => step_cell_isSome_of_blockNext hb h, fun hr ha hb => ?_⟩
  · have hnil : t.raster = [] :=
      hdiscard.elim (step_raster_of_resetsNext · h) fun ⟨_, ha⟩ => step_raster_of_acceptsNext ha h
    exact State.cell_of_raster_nil hnil k
  · obtain rfl | ⟨ms, ts, hm⟩ := step_cases_of_not_blockNext hb h
    · rfl
    · exact hm.raster_eq hr ha

end Sys2Proof.Machine
end

section
/-! PROOFS. The source buffer: the addresses a decode reads, the slots of the host's map, and the host's writes
(20_memory.md sections 4 to 6). -/
namespace Sys2Proof.Machine

open Sys2Proof Sys2Proof.Config

/-- The flags of the host's map lie below its first slot (R36). -/
theorem deletionFlagAddr_lt_pairAddr_slotOffset {j : Nat} (hj : j < 30) (i n : Nat) :
    deletionFlagAddr j < pairAddr (slotOffset i) n := by
  rw [pairAddr_eq, deletionFlagAddr, slotOffset]
  omega

/-- Settles O12: row pair `n` is the two bytes at `off + 2×n`, and every slot lies above the flags. -/
theorem readFootprint : Obligations.ReadFootprint := by
  refine ⟨fun off a => ⟨?_, fun ha => ⟨(a - off) / 2, ?_⟩⟩, fun off m n _ _ hne => ?_, fun i _ j hj n _ => ?_⟩
  · rintro ⟨n, hn, ha⟩
    rw [pairAddr_eq] at ha
    omega
  · rw [pairAddr_eq]
    omega
  · rw [pairAddr_eq, pairAddr_eq]
    omega
  · have hlt := deletionFlagAddr_lt_pairAddr_slotOffset hj i n
    omega

/-- The block of a slot ends inside the first 131072 bytes (R36). -/
theorem slotOffset_add_le {i : Nat} (hi : i < 30) : slotOffset i + 4096 ≤ 131072 := by
  rw [slotOffset]
  omega

/-- Settles O14: a slot ends inside the buffer, so its offset fits the operand field and passes the check of R75. -/
theorem slotsFitReferenceBuffer : Obligations.SlotsFitReferenceBuffer := by
  refine ⟨fun i hi => ?_, rfl⟩
  have hend := slotOffset_add_le hi
  have hlt : slotOffset i < 2 ^ 24 := by omega
  refine ⟨hlt, (blockFits_iff _ _).mpr ?_⟩
  rw [BitVec.toNat_ofNat, Nat.mod_eq_of_lt hlt]
  exact hend

section Write
variable {s : State} {a : Nat} {bytes : List Byte}

/-- Outside `BUSY` a host write inside the buffer is made (R43). -/
theorem hostWrite_of_le (hst : s.st ≠ .busy) (hle : a + bytes.length ≤ s.bufLen.val) :
    s.hostWrite a bytes = .next { s with mem := storeSetFrom s.mem a bytes } := by
  obtain ⟨hbusy, _⟩ | ⟨_, _, e⟩ | ⟨_, _, hlt, _⟩ := hostWrite_cases s a bytes
  · exact absurd hbusy hst
  · exact e
  · exact absurd hle (Nat.not_le.mpr hlt)

/-- While `ST = BUSY` there is no host write (U3; log 6). -/
theorem hostWrite_of_busy (hst : s.st = .busy) : s.hostWrite a bytes = .refused .sourceWriteWhileBusy := by
  rw [State.hostWrite, hst]

/-- A written byte is read back at its address. -/
theorem memRead_write_same (hle : a + bytes.length ≤ s.bufLen.val) {j : Nat} (hj : j < bytes.length) :
    ({ s with mem := storeSetFrom s.mem a bytes } : State).memRead (a + j) = some bytes[j] := by
  have hlt : a + j < s.bufLen.val := by omega
  have hin : a ≤ a + j ∧ a + j < a + bytes.length := by omega
  rw [State.memRead_of_lt (s := { s with mem := storeSetFrom s.mem a bytes }) hlt, byteAt_write, if_pos hin,
    Nat.add_sub_cancel_left, List.getElem?_eq_getElem hj, Option.getD_some]

/-- An address outside the written bytes reads as before. -/
theorem memRead_write_other {x : Nat} (hx : x < a ∨ a + bytes.length ≤ x) :
    ({ s with mem := storeSetFrom s.mem a bytes } : State).memRead x = s.memRead x := by
  have hout : ¬ (a ≤ x ∧ x < a + bytes.length) := by omega
  rw [State.memRead, State.memRead, byteAt_write, if_neg hout]

end Write

/-- Settles O44: the write is made outside `BUSY` and refused in it, and reading after it is reading a written store. -/
theorem hostWriteMove : Obligations.HostWriteMove :=
  ⟨fun _ _ _ hst hle => ⟨_, hostWrite_of_le hst hle, rfl, fun _ hj => memRead_write_same hle hj,
      fun _ hx => memRead_write_other hx⟩,
    fun _ _ _ hst => hostWrite_of_busy hst⟩

end Sys2Proof.Machine
end

section
/-! PROOFS. The command words (30_encoding.md Part B): the encoder and the decoder are inverse to each other, the rows
of the opcode table, and the words that select none. -/
namespace Sys2Proof

/-- The word of an instruction is the word with its operation code and its operand in the two fields (R57). -/
theorem encode_eq_of_fields {cw : Word} {i : Instr} (hop : opField cw = opcodeOf i) (himm : immField cw = operandOf i) :
    encode i = cw := by
  rw [encode, ← hop, ← himm, opField_append_immField]

/-- A word decodes to an instruction exactly when it is the word of that instruction and the instruction is well-formed
(R57, R59). -/
theorem decodeWord_eq_ok_iff {cw : Word} {i : Instr} : decodeWord cw = .ok i ↔ encode i = cw ∧ WellFormed i := by
  constructor
  · intro h
    rw [decodeWord_fields] at h
    split_ifs at h with h1 h2 h3 hn <;> cases h
    · exact ⟨encode_eq_of_fields h1 rfl, rfl⟩
    · exact ⟨encode_eq_of_fields h2 rfl, rfl⟩
    · exact ⟨encode_eq_of_fields h3 rfl, decide_eq_true hn⟩
  · rintro ⟨rfl, hwf⟩
    cases i with
    | decode off => exact decodeWord_append 1 off
    | rdpix k => exact decodeWord_append 2 k
    | rdcr n => exact (decodeWord_append 3 n).trans (if_pos (of_decide_eq_true hwf))

/-- Settles O1: the encoder puts the operation code above the operand, and the decoder reads the two fields. -/
theorem encodeThenDecode : Obligations.EncodeThenDecode := fun _ hwf => decodeWord_eq_ok_iff.mpr ⟨rfl, hwf⟩

/-- Settles O2: the two fields the decoder reads make up the whole word. -/
theorem decodeThenEncode : Obligations.DecodeThenEncode := fun _ _ h => decodeWord_eq_ok_iff.mp h

/-! The rows of the opcode table (R59). -/

theorem rowSelects_iff {cw : Word} {r : OpcodeRow} : rowSelects cw r = true ↔ cw &&& r.mask = r.pattern := beq_iff_eq

theorem opField_and (x y : Word) : opField (x &&& y) = opField x &&& opField y := BitVec.extractLsb'_and

/-- Every row fixes the whole `op` field: a word that selects it has the `op` of its match word. -/
theorem opField_eq_of_rowSelects {cw : Word} {r : OpcodeRow} (hr : r ∈ opcodeTable) (h : rowSelects cw r = true) :
    opField cw = opField r.pattern := by
  have hmask : ∀ r ∈ opcodeTable, opField r.mask = BitVec.allOnes 8 := by decide
  rw [← rowSelects_iff.mp h, opField_and, hmask r hr, BitVec.and_allOnes]

/-- A word selects at most one row: no two rows have the same `op`. -/
theorem row_unique {cw : Word} {r₁ r₂ : OpcodeRow} (hr₁ : r₁ ∈ opcodeTable) (hr₂ : r₂ ∈ opcodeTable)
    (h₁ : rowSelects cw r₁ = true) (h₂ : rowSelects cw r₂ = true) : r₁ = r₂ := by
  have hop : ∀ r ∈ opcodeTable, ∀ r' ∈ opcodeTable, opField r.pattern = opField r'.pattern → r = r' := by decide
  exact hop r₁ hr₁ r₂ hr₂ ((opField_eq_of_rowSelects hr₁ h₁).symm.trans (opField_eq_of_rowSelects hr₂ h₂))

/-- A word that selects a row decodes to what the row stands for. -/
theorem decodeWord_of_rowSelects {cw : Word} {r : OpcodeRow} (hr : r ∈ opcodeTable) (h : rowSelects cw r = true) :
    decodeWord cw = .ok (instrOf r.mnemonic (immField cw)) := by
  have hfind : opcodeTable.find? (rowSelects cw) = some r := by
    cases hf : opcodeTable.find? (rowSelects cw) with
    | none => exact absurd h (List.find?_eq_none.mp hf r hr)
    | some r' => rw [row_unique (List.mem_of_find?_eq_some hf) hr (List.find?_some hf) h]
  rw [decodeWord, hfind]

/-- A word that decodes selects a row. -/
theorem exists_rowSelects_of_decodeWord {cw : Word} {i : Instr} (h : decodeWord cw = .ok i) :
    ∃ r ∈ opcodeTable, rowSelects cw r = true := by
  rw [decodeWord] at h
  cases hf : opcodeTable.find? (rowSelects cw) with
  | some r => exact ⟨r, List.mem_of_find?_eq_some hf, List.find?_some hf⟩
  | none =>
    rw [hf] at h
    split_ifs at h

/-- Settles O3: a selected row is the one the decoder finds, since no two rows have the same `op`. -/
theorem opcodeMapRows : Obligations.OpcodeMapRows := by
  refine ⟨fun cw h => ?_, fun cw h => ?_, fun cw h => ?_, fun cw i h => ?_, fun cw r₁ hr₁ r₂ hr₂ h₁ h₂ => ?_⟩
  · exact decodeWord_of_rowSelects (r := ⟨.DECODE, _, _⟩) (by decide) (rowSelects_iff.mpr h)
  · exact decodeWord_of_rowSelects (r := ⟨.RDPIX, _, _⟩) (by decide) (rowSelects_iff.mpr h)
  · exact decodeWord_of_rowSelects (r := ⟨.RDCR, _, _⟩) (by decide) (rowSelects_iff.mpr h)
  · obtain ⟨r, hr, hsel⟩ := exists_rowSelects_of_decodeWord h
    exact ⟨r, hr, rowSelects_iff.mp hsel⟩
  · exact row_unique hr₁ hr₂ (rowSelects_iff.mpr h₁) (rowSelects_iff.mpr h₂)

end Sys2Proof

namespace Sys2Proof.Machine

open Sys2Proof

/-! The illegal words (R60). -/

/-- Bits [23:2] of a word are the operand without its two lowest bits. -/
theorem extractLsb'_2_22_eq_zero_iff (cw : Word) : cw.extractLsb' 2 22 = 0#22 ↔ (immField cw).toNat < 4 := by
  rw [← BitVec.toNat_inj, immField, BitVec.extractLsb'_toNat, BitVec.extractLsb'_toNat, Nat.shiftRight_eq_div_pow,
    Nat.shiftRight_eq_div_pow, BitVec.toNat_ofNat]
  omega

/-- The decoder refuses exactly the words of R60's list. -/
theorem decodeWord_error_iff (cw : Word) : (∃ e, decodeWord cw = .error e) ↔ IllegalWord cw := by
  show _ ↔ opField cw = 0#8 ∨ 4#8 ≤ opField cw ∨ opField cw = 3#8 ∧ cw.extractLsb' 2 22 ≠ 0#22
  rw [ne_eq, extractLsb'_2_22_eq_zero_iff, decodeWord_fields]
  split_ifs with h1 h2 h3 hn
  · simp [h1]
  · simp [h2]
  · simp [h3, hn]
  · simp [h3, hn]
  · have hop : opField cw = 0#8 ∨ 4#8 ≤ opField cw := by bv_omega
    exact ⟨fun _ => hop.imp_right .inl, fun _ => ⟨_, rfl⟩⟩

/-- A word that decodes is run (R61). -/
theorem takeCommand_of_decodeWord {cw : Word} {i : Instr} (h : decodeWord cw = .ok i) (s : State) :
    takeCommand cw s = exec i s := by
  rw [takeCommand, h]

/-- A word of R60's list is taken as an illegal command. -/
theorem takeCommand_of_illegalWord {cw : Word} (h : IllegalWord cw) (s : State) :
    takeCommand cw s = .next s.takeIllegal := by
  obtain ⟨e, he⟩ := (decodeWord_error_iff cw).mpr h
  rw [takeCommand, he]

/-- Settles O4: the decoder refuses the words of the list, and a refused word is an illegal command. -/
theorem illegalWordsFault : Obligations.IllegalWordsFault := by
  refine ⟨decodeWord_error_iff, fun cw s h hst => ?_, fun cw s h hst => ?_⟩
  · rw [takeCommand_of_illegalWord h, takeIllegal_eq, if_neg hst]
    rfl
  · rw [takeCommand_of_illegalWord h, takeIllegal_eq, if_pos hst]
    rfl

end Sys2Proof.Machine
end

section
/-! PROOFS. The numbering of the raster (30_encoding.md A.5), in the coordinates of `cell_coords` and `pair_coords`. -/
namespace Sys2Proof.Machine

open Sys2Proof Sys2Proof.Config

/-- The cell of a position in the tile grid, as a number (R54). -/
theorem cellIndex_eq (A C R c : Nat) : cellIndex A C R c = A * 1024 + R * 128 + C * 8 + c := by
  simp only [cellIndex, TS, W]
  omega

section Coordinates
variable {A R C c : Nat}

/-- The tile of the cell at tile row `A`, row `R`, tile column `C`, column `c`. -/
theorem cellTileId_at (hR : R < 8) (hC : C < 16) (hc : c < 8) :
    cellTileId (A * 1024 + R * 128 + C * 8 + c) = A * 16 + C := by
  simp only [cellTileId, cellY, cellX, TS, TCOLS, W]
  omega

/-- The row of that cell inside its tile. -/
theorem cellRow_at (hR : R < 8) (hC : C < 16) (hc : c < 8) : cellRow (A * 1024 + R * 128 + C * 8 + c) = R := by
  simp only [cellRow, cellY, TS, W]
  omega

/-- The column of that cell inside its tile. -/
theorem cellCol_at (hc : c < 8) : cellCol (A * 1024 + R * 128 + C * 8 + c) = c := by
  rw [cellCol_eq]
  omega

theorem tileRowOf_at (hC : C < 16) : tileRowOf (A * 16 + C) = A := by
  simp only [tileRowOf, TCOLS]
  omega

theorem tileColOf_at (hC : C < 16) : tileColOf (A * 16 + C) = C := by
  simp only [tileColOf, TCOLS]
  omega

end Coordinates

/-- Settles O10: a cell's four coordinates determine it and can be read off it. -/
theorem rasterIndexBijection : Obligations.RasterIndexBijection := by
  refine ⟨fun A hA C hC R hR c hc => ?_, fun k hk => ?_⟩
  · rw [cellIndex_eq, cellTileId_at hR hC hc, cellRow_at hR hC hc, cellCol_at hc]
    exact ⟨by omega, rfl, rfl, rfl⟩
  · obtain ⟨A, R, C, c, hR, hC, hc, rfl⟩ := cell_coords k
    rw [cellTileId_at hR hC hc, cellRow_at hR hC hc, cellCol_at hc, tileRowOf_at hC, tileColOf_at hC, cellIndex_eq]
    exact ⟨by omega, hR, hc, rfl⟩

/-- The row pair of each of the eight cells from `pairCell n` is `n`. -/
theorem cellPair_pairCell_add (n : Nat) {c : Nat} (hc : c < 8) : cellPair (pairCell n + c) = n :=
  (pairCell_le_iff _).mp ⟨by omega, by omega⟩

/-- A cell is the first cell of its row pair moved by its tile column. -/
theorem pairCell_add_cellCol (k : Nat) : pairCell (cellPair k) + cellCol k = k := by
  have hle := ((pairCell_le_iff k).mpr rfl).1
  have hsub := sub_pairCell k
  omega

/-- Settles O11: the eight cells from `pairCell n` are those of row pair `n`, in the order of their columns. -/
theorem rowPairNumbering : Obligations.RowPairNumbering := by
  refine ⟨pairAddr_eq, fun n hn c hc => ?_, fun k hk => ?_⟩
  · have hend := pairCell_add_le hn
    have hpair := cellPair_pairCell_add n hc
    have hcell := pairCell_add_cellCol (pairCell n + c)
    rw [hpair] at hcell
    exact ⟨by omega, hpair, by omega⟩
  · exact ⟨(cellPair_lt_iff k).mpr hk, pairCell_add_cellCol k,
      fun off => (cellAddr_eq off k).trans (pairAddr_eq off _).symm⟩

end Sys2Proof.Machine
end

section
/-! PROOFS. How the machine comes to take a command word (R41, R57, R61). -/
namespace Sys2Proof.Machine

open Sys2Proof

section Step
variable {s : State} {m : HostMove} {ms : List HostMove} {ts : List Agent}

/-- While `ST ≠ BUSY` a step makes the host's next move (R128; log 3). -/
theorem step_of_quiet_of_pending (hst : s.st ≠ .busy) (hp : s.pending = m :: ms) :
    step s = takeMove m { s with pending := ms } := by
  rw [step_of_quiet hst, quietTransition, hp]

/-- While `ST = BUSY` a step makes the host's next move when the turn is the host's (R128; log 4). -/
theorem step_of_busy_of_turn (hst : s.st = .busy) (hp : s.pending = m :: ms) (ht : s.turns = .host :: ts) :
    step s = takeMove m { s with pending := ms, turns := ts } := by
  rw [step_of_busy hst, busyTransition, hp, ht]

end Step

/-- Settles O49: the host's next move is made, and a command move is the instruction its word decodes to. -/
theorem stepRunsDecodedInstruction : Obligations.StepRunsDecodedInstruction := fun _ _ _ _ hp hd =>
  ⟨fun hst => (step_of_quiet_of_pending hst hp).trans (takeCommand_of_decodeWord hd _),
    fun _ hst ht => (step_of_busy_of_turn hst hp ht).trans (takeCommand_of_decodeWord hd _)⟩

theorem State.giveCommand_turns_of_busy {s : State} (hst : s.st = .busy) (cw : Word) :
    (s.giveCommand cw).turns = .host :: s.turns := by
  rw [State.giveCommand, hst]

theorem State.giveCommand_turns_of_quiet {s : State} (hst : s.st ≠ .busy) (cw : Word) :
    (s.giveCommand cw).turns = s.turns := by
  rw [State.giveCommand]
  cases h : s.st with
  | busy => exact absurd h hst
  | idle | done | fault => rfl

/-- A word given to the machine is taken in the state it was given in: the step takes the move, and in `BUSY` the turn,
off again (log 10). -/
theorem step_giveCommand (s : State) (cw : Word) : step (s.giveCommand cw) = takeCommand cw s := by
  by_cases hst : s.st = .busy
  · exact step_of_busy_of_turn (s := s.giveCommand cw) hst (State.giveCommand_pending s cw)
      (State.giveCommand_turns_of_busy hst cw)
  · have htake := step_of_quiet_of_pending (s := s.giveCommand cw) hst (State.giveCommand_pending s cw)
    exact htake.trans
      (congrArg (fun ts => takeCommand cw { s with turns := ts }) (State.giveCommand_turns_of_quiet hst cw))

theorem tableWord_of_lt {w : Nat} (hw : w < 2 ^ 32) : tableWord 32 w = BitVec.ofNat 32 w := by
  rw [tableWord, Nat.mod_eq_of_lt hw]

/-- Settles O50: the word is the given one, and giving it makes it the next move. -/
theorem givenWordIsNext : Obligations.GivenWordIsNext := by
  intro s w hw
  have hstep : step (s.withFetchWord 32 w) = takeCommand (tableWord 32 w) s := step_giveCommand s _
  refine ⟨tableWord_of_lt hw ▸ hstep, fun i hi => ?_⟩
  have hd : decodeWord (tableWord 32 w) = .ok i := decodeWord_of_wordInstr hi
  exact hstep.trans (takeCommand_of_decodeWord hd s)

end Sys2Proof.Machine
end

section
/-! PROOFS. The assembler (30_encoding.md Part C): what one line assembles to, then what a program does. -/
namespace Sys2Proof.Machine

open Sys2Proof Sys2Proof.Config

/-- A line is a `.buflen` or it is not. -/
theorem Line.eq_bufLen_or (l : Line) : (∃ n, l = .bufLen n) ∨ ∀ n, l ≠ .bufLen n :=
  or_iff_not_imp_left.mpr fun h n e => h ⟨n, e⟩

section Lines
variable {l : Line} {ls : List Line}

/-! What becomes of the first line, for every line that is no `.buflen`. -/

theorem assembleLines_cons (hl : ∀ n, l ≠ .bufLen n) (hr : l.inRange = true) :
    assembleLines (l :: ls) = (assembleLines ls).map (l.moves ++ ·) := by
  rw [assembleLines, if_pos hr]
  · cases assembleLines ls <;> rfl
  · exact hl

theorem assembleLines_cons_of_not_inRange (hl : ∀ n, l ≠ .bufLen n) (hr : l.inRange = false) :
    assembleLines (l :: ls) = .error (.operandOutOfRange l) := by
  rw [assembleLines, hr]
  · exact if_neg Bool.false_ne_true
  · exact hl

/-- A line alone assembles to its moves. -/
theorem assembleLines_singleton (hl : ∀ n, l ≠ .bufLen n) (hr : l.inRange = true) :
    assembleLines [l] = .ok l.moves :=
  (assembleLines_cons hl hr).trans (congrArg Except.ok (List.append_nil _))

/-- The lines that assemble alone, and to what. -/
theorem assembleLines_singleton_eq_ok {ms : List HostMove} (h : assembleLines [l] = .ok ms) :
    (∀ n, l ≠ .bufLen n) ∧ l.inRange = true ∧ l.moves = ms := by
  have hl : ∀ n, l ≠ .bufLen n := by
    rintro n rfl
    cases h
  cases hr : l.inRange with
  | true =>
    rw [assembleLines_singleton hl hr] at h
    cases h
    exact ⟨hl, rfl, rfl⟩
  | false =>
    rw [assembleLines_cons_of_not_inRange hl hr] at h
    cases h

/-- The lines that are refused alone for their operand. -/
theorem assembleLines_singleton_eq_error (h : assembleLines [l] = .error (.operandOutOfRange l)) :
    (∀ n, l ≠ .bufLen n) ∧ l.inRange = false := by
  have hl : ∀ n, l ≠ .bufLen n := by
    rintro n rfl
    cases h
  refine ⟨hl, Bool.eq_false_iff.mpr fun hr => ?_⟩
  rw [assembleLines_singleton hl hr] at h
  cases h

end Lines

/-! The command lines (R62). -/

/-- A number in the range of a field is kept by it. -/
theorem toNat_ofNat_of_lt {w n : Nat} (h : n < 2 ^ w) : (BitVec.ofNat w n).toNat = n := by
  rw [BitVec.toNat_ofNat, Nat.mod_eq_of_lt h]

/-- The word of a command line is the word of the instruction with its operation code and operand. -/
theorem commandWord_eq_encode (i : Instr) : commandWord (opcodeOf i).toNat (operandOf i).toNat = encode i := by
  obtain ⟨_, _, hnum⟩ := Laws.FieldsKept.of_encode i
  rw [commandWord, ← hnum, BitVec.ofNat_toNat, BitVec.setWidth_eq]

/-- A line whose one move is the command word of `i` assembles to the encoding of `i`, and that is `op×2^24 + imm`. -/
theorem assembleLines_command {l : Line} (i : Instr) {imm : Nat} (hl : ∀ n, l ≠ .bufLen n) (hr : l.inRange = true)
    (hm : l.moves = [.command (commandWord (opcodeOf i).toNat imm)]) (himm : (operandOf i).toNat = imm) :
    assembleLines [l] = .ok [.command (encode i)] ∧ (encode i).toNat = (opcodeOf i).toNat * 2 ^ 24 + imm := by
  subst himm
  obtain ⟨_, _, hnum⟩ := Laws.FieldsKept.of_encode i
  rw [assembleLines_singleton hl hr, hm, commandWord_eq_encode]
  exact ⟨rfl, hnum⟩

/-- Settles O51: a command line in range makes one move, and one out of range is refused. -/
theorem commandLinesAssemble : Obligations.CommandLinesAssemble := by
  refine ⟨fun off h => ?_, fun k h => ?_, fun n h => ?_, fun off h => ?_, fun k h => ?_, fun n h => ?_⟩
  · exact assembleLines_command (.decode _) nofun (decide_eq_true h) rfl (toNat_ofNat_of_lt h)
  · exact assembleLines_command (.rdpix _) nofun (decide_eq_true h) rfl (toNat_ofNat_of_lt h)
  · exact assembleLines_command (.rdcr _) nofun (decide_eq_true h) rfl (toNat_ofNat_of_lt (w := 24) (by omega))
  · exact assembleLines_cons_of_not_inRange nofun (decide_eq_false (Nat.not_lt.mpr h))
  · exact assembleLines_cons_of_not_inRange nofun (decide_eq_false (Nat.not_lt.mpr h))
  · exact assembleLines_cons_of_not_inRange nofun (decide_eq_false (Nat.not_le.mpr h))

/-! The pseudo-commands (R63). -/

/-- Lines in range that make the same moves assemble alike. -/
theorem assembleLines_singleton_congr {l l' : Line} (hl : ∀ n, l ≠ .bufLen n) (hl' : ∀ n, l' ≠ .bufLen n)
    (hr : l.inRange = true) (hr' : l'.inRange = true) (hm : l.moves = l'.moves) :
    assembleLines [l] = assembleLines [l'] := by
  rw [assembleLines_singleton hl hr, assembleLines_singleton hl' hr', hm]

/-- The `ST` field of a status word is the word's remainder by 4. -/
theorem showsBusy_iff (w : Word) : showsBusy w = true ↔ w.toNat % 4 = 1 := by
  rw [showsBusy, beq_iff_eq, ← BitVec.toNat_inj, BitVec.extractLsb'_toNat]
  rfl

/-- A status word leaves the remainder 1 exactly in `BUSY` (R14). -/
theorem statusWord_mod_four_iff (st : St) (fc : FaultCode) : (statusWord st fc).toNat % 4 = 1 ↔ st = .busy := by
  rw [← showsBusy_iff, showsBusy_statusWord, decide_eq_true_iff]

/-- Settles O52: each pseudo-command makes the moves of its expansion, and a poll is made again exactly in `BUSY`. -/
theorem pseudoCommands : Obligations.PseudoCommands := by
  refine ⟨fun i hi => ?_, fun x hx y hy => ?_, fun i hi => ?_, fun x y h => ?_, rfl, rfl,
    fun s => ⟨statusWord s.st s.fc, rfl, ?_⟩⟩
  · have hoff : slotOffset i < 2 ^ 24 := by
      have hend := slotOffset_add_le (i := i) (by omega)
      omega
    exact assembleLines_singleton_congr nofun nofun (decide_eq_true hi) (decide_eq_true hoff) rfl
  · have hk : pixelIndex x y < 2 ^ 24 := by
      rw [pixelIndex, W]
      omega
    exact assembleLines_singleton_congr nofun nofun (decide_eq_true ⟨hx, hy⟩) (decide_eq_true hk) rfl
  · exact assembleLines_cons_of_not_inRange nofun (decide_eq_false (Nat.not_le.mpr hi))
  · exact assembleLines_cons_of_not_inRange nofun (decide_eq_false (by omega))
  · simp only [statusWord_mod_four_iff]
    exact takePoll_eq s

/-! The directives (R64). -/

/-- Bytes below 256 are kept as they are. -/
theorem map_toNat_map_ofNat {bytes : List Nat} (h : ∀ b ∈ bytes, b < 256) :
    (bytes.map (BitVec.ofNat 8)).map BitVec.toNat = bytes := by
  rw [List.map_map]
  exact (List.map_congr_left fun b hb => toNat_ofNat_of_lt (h b hb)).trans (List.map_id bytes)

/-- Settles O53: a directive in range makes its move or none, and one out of range is refused. -/
theorem directivesAssemble : Obligations.DirectivesAssemble := by
  refine ⟨fun a bytes h => ?_, fun a len b h => ?_, rfl, fun w h => ?_, rfl, fun v h => ?_, rfl, fun a bytes h => ?_,
    fun a len b h => ?_, fun w h => ⟨?_, ?_⟩⟩
  · have hr : (Line.mem a bytes).inRange = true := List.all_eq_true.mpr fun b hb => decide_eq_true (h b hb)
    exact ⟨_, assembleLines_singleton nofun hr, map_toNat_map_ofNat h⟩
  · refine ⟨_, assembleLines_singleton nofun (decide_eq_true h), List.length_replicate, fun j hj => ?_⟩
    rw [List.getElem_replicate, toNat_ofNat_of_lt h]
  · exact ⟨_, assembleLines_singleton nofun (decide_eq_true h), toNat_ofNat_of_lt h⟩
  · exact assembleLines_singleton nofun (decide_eq_true h)
  · obtain ⟨b, hb, hle⟩ := h
    have hr : (Line.mem a bytes).inRange = false := List.all_eq_false.mpr ⟨b, hb, by simpa using hle⟩
    exact assembleLines_cons_of_not_inRange nofun hr
  · exact assembleLines_cons_of_not_inRange nofun (decide_eq_false (Nat.not_lt.mpr h))
  · exact assembleLines_cons_of_not_inRange nofun (decide_eq_false (Nat.not_lt.mpr h))
  · exact assembleLines_cons_of_not_inRange nofun (decide_eq_false (Nat.not_lt.mpr h))

/-! Programs (R62, R64). -/

section Programs
variable {l : Line} {ls : List Line}

/-- Lines that assemble alone assemble together to their moves in order. -/
theorem assembleLines_forall₂ {parts : List (List HostMove)}
    (h : List.Forall₂ (fun l ms => assembleLines [l] = .ok ms) ls parts) : assembleLines ls = .ok parts.flatten := by
  induction h with
  | nil => rfl
  | cons h _ ih =>
    obtain ⟨hl, hr, rfl⟩ := assembleLines_singleton_eq_ok h
    rw [assembleLines_cons hl hr, ih]
    rfl

/-- After lines that assemble alone, a refusal of the rest is the refusal of the whole. -/
theorem assembleLines_append_error {ls' : List Line} {e : AsmError} (h : ∀ l ∈ ls, ∃ ms, assembleLines [l] = .ok ms)
    (he : assembleLines ls' = .error e) : assembleLines (ls ++ ls') = .error e := by
  induction ls with
  | nil => exact he
  | cons l ls ih =>
    obtain ⟨⟨ms, hms⟩, hls⟩ := List.forall_mem_cons.mp h
    obtain ⟨hl, hr, _⟩ := assembleLines_singleton_eq_ok hms
    rw [List.cons_append, assembleLines_cons hl hr, ih hls]
    rfl

/-- Among lines in range a `.buflen` is refused, whatever follows it (R64). -/
theorem assembleLines_append_bufLen (h : ∀ l ∈ ls, l.inRange = true) (n : Nat) (ls' : List Line) :
    assembleLines (ls ++ .bufLen n :: ls') = .error .bufLenNotFirst := by
  induction ls with
  | nil => rfl
  | cons l ls ih =>
    obtain ⟨hr, hls⟩ := List.forall_mem_cons.mp h
    obtain ⟨m, rfl⟩ | hl := l.eq_bufLen_or
    · rfl
    · rw [List.cons_append, assembleLines_cons hl hr, ih hls]
      rfl

/-- A `.buflen` in range that comes first sets the buffer length (R64). -/
theorem assemble_bufLen (n : BufLen) (ls : List Line) :
    assemble (.bufLen n.val :: ls) = (assembleLines ls).map (⟨n, ·⟩) := by
  rw [assemble, dif_pos n.isLt]
  cases assembleLines ls <;> rfl

/-- A `.buflen` above `2^24` is refused (R5). -/
theorem assemble_bufLen_of_lt {n : Nat} (hn : 2 ^ 24 < n) (ls : List Line) :
    assemble (.bufLen n :: ls) = .error (.operandOutOfRange (.bufLen n)) :=
  dif_neg (by rw [maxBufLen]; omega)

/-- With any other line than a `.buflen` or a blank one first, the buffer has its reference length (log 15). -/
theorem assemble_cons (hl : ∀ n, l ≠ .bufLen n) (hb : l ≠ .blank) :
    assemble (l :: ls) = (assembleLines (l :: ls)).map (⟨131072, ·⟩) := by
  rw [assemble]
  · cases assembleLines (l :: ls) <;> rfl
  · rintro _ ⟨⟩
    exact hb rfl
  · rintro n _ ⟨⟩
    exact hl n rfl

/-- A blank line makes no move (log 14). -/
theorem assembleLines_blank_cons (ls : List Line) : assembleLines (.blank :: ls) = assembleLines ls := by
  rw [assembleLines_cons (l := .blank) nofun rfl]
  cases assembleLines ls <;> rfl

/-- Lines in which no `.buflen` is found are a program for the reference buffer. -/
theorem assemble_of_assembleLines (h : assembleLines ls ≠ .error .bufLenNotFirst) :
    assemble ls = (assembleLines ls).map (⟨131072, ·⟩) := by
  induction ls with
  | nil => rfl
  | cons l ls ih =>
    obtain ⟨m, rfl⟩ | hl := l.eq_bufLen_or
    · exact absurd rfl h
    · by_cases hb : l = .blank
      · subst hb
        rw [assembleLines_blank_cons] at h ⊢
        exact ih h
      · exact assemble_cons hl hb

/-- What the lines assemble to decides the program without a `.buflen` and with one first, unless they hold a `.buflen`
themselves. -/
theorem assemble_of_assembleLines_eq {r : Except AsmError (List HostMove)} (h : assembleLines ls = r)
    (hr : r ≠ .error .bufLenNotFirst) : assemble ls = r.map (⟨131072, ·⟩) ∧
      ∀ n : BufLen, assemble (.bufLen n.val :: ls) = r.map (⟨n, ·⟩) := by
  subst h
  exact ⟨assemble_of_assembleLines hr, fun n => assemble_bufLen n ls⟩

/-- A `.buflen` after a line that is not blank is refused, another `.buflen` being such a line (R64). -/
theorem assemble_append_bufLen (h : ∀ l ∈ ls, l.inRange = true) (hb : ∃ l ∈ ls, l ≠ .blank) (n : Nat)
    (ls' : List Line) : assemble (ls ++ .bufLen n :: ls') = .error .bufLenNotFirst := by
  induction ls with
  | nil => obtain ⟨l, hl, _⟩ := hb; cases hl
  | cons l ls ih =>
    obtain ⟨hr, hls⟩ := List.forall_mem_cons.mp h
    have hlines := assembleLines_append_bufLen hls n ls'
    by_cases hblank : l = .blank
    · subst hblank
      exact ih hls (by simpa using hb)
    obtain ⟨m, rfl⟩ | hl := l.eq_bufLen_or
    · have hm : m < maxBufLen + 1 := Nat.lt_succ_of_le (of_decide_eq_true hr)
      rw [List.cons_append, assemble_bufLen ⟨m, hm⟩, hlines]
      rfl
    · rw [List.cons_append, assemble_cons hl hblank, assembleLines_cons hl hr, hlines]
      rfl

end Programs

/-- Settles O54: the moves of the lines follow each other, the first refusal is the program's, and a `.buflen` is
read where it comes first and nowhere else. -/
theorem programsAssembleInOrder : Obligations.ProgramsAssembleInOrder := by
  refine ⟨fun ls parts h => ?_, fun ls ls' l h hl => ?_, fun ls n hn => assemble_bufLen_of_lt hn ls,
    fun ls ls' n h hb => assemble_append_bufLen h hb n ls'⟩
  · exact assemble_of_assembleLines_eq (assembleLines_forall₂ h) nofun
  · obtain ⟨hne, hr⟩ := assembleLines_singleton_eq_error hl
    have hlines := assembleLines_append_error h (assembleLines_cons_of_not_inRange (ls := ls') hne hr)
    exact assemble_of_assembleLines_eq hlines nofun

end Sys2Proof.Machine
end

section
/-! PROOFS. The function layer (40_decode.md Part A): pixels, rows, tiles and rasters in the spec's own arithmetic. -/
namespace Sys2Proof.Machine

open Sys2Proof Sys2Proof.Config

/-- The number a pixel is (R70): two bits are wide enough for it. -/
theorem toNat_pixVal (bit0 bit1 : Bool) : (pixVal bit0 bit1).toNat = bit1.toNat * 2 + bit0.toNat := by
  cases bit0 <;> cases bit1 <;> rfl

/-- Settles O6, by the four pairs of bits. -/
theorem pixValFormula : Obligations.PixValFormula := toNat_pixVal

/-- The pixel of a column is the plane formula (R71). -/
theorem toNat_rowPixel (b0 b1 : Byte) (c : Nat) : (rowPixel b0 b1 c).toNat = planePixel b0 b1 c := by
  rw [rowPixel, toNat_pixVal, toNat_bit, toNat_bit, Nat.mul_comm]

/-- Settles O7: the list has one pixel for each column, and each is the plane formula. -/
theorem rowDecodeFormula : Obligations.RowDecodeFormula :=
  ⟨length_rowDecode, fun b0 b1 _ hc => ⟨_, getElem?_rowDecode b0 b1 hc, toNat_rowPixel b0 b1 _⟩, by decide⟩

/-- Row `r` of a tile is decoded from its bytes `2×r` and `2×r + 1` (R72). -/
theorem getElem?_tileDecode (t : Vector Byte 16) {r : Nat} (hr : r < 8) :
    (tileDecode t)[r]? = some (rowDecode (t[2 * r]'(by omega)) (t[2 * r + 1]'(by omega))) := by
  have hlen : r < (List.finRange 8).length := by rwa [List.length_finRange]
  rw [tileDecode, List.getElem?_map, List.getElem?_eq_getElem hlen, List.getElem_finRange]
  rfl

/-- Settles O8: the rows of the two examples all have the same two bytes. -/
theorem tileDecodeFormula : Obligations.TileDecodeFormula := by
  refine ⟨fun t => ?_, fun t r hr => getElem?_tileDecode t hr, fun t ht r hr => ?_, fun t ht r hr => ?_⟩
  · rw [tileDecode, List.length_map, List.length_finRange]
  · rw [getElem?_tileDecode t hr, ht, ht, if_pos (by omega), if_neg (by omega)]
    decide
  · rw [getElem?_tileDecode t hr, ht, ht]
    decide

/-- The pixel of a cell is the plane formula for the bytes at the cell's source address (R73). -/
theorem toNat_rasterPixel (M : Nat → Byte) (off k : Nat) : (rasterPixel M off k).toNat =
    planePixel (M (cellAddr off k)) (M (cellAddr off k + 1)) (cellCol k) :=
  toNat_rowPixel _ _ _

/-- The pixel at a position in the tile grid is the pixel of its column in its row of the tile (R73). -/
theorem rasterPixel_cellIndex (M : Nat → Byte) (off A : Nat) {C R c : Nat} (hC : C < 16) (hR : R < 8) (hc : c < 8) :
    rasterPixel M off (cellIndex A C R c) =
      rowPixel (M (off + (A * 16 + C) * 16 + R * 2)) (M (off + (A * 16 + C) * 16 + R * 2 + 1)) c := by
  rw [rasterPixel, cellAddr, cellIndex_eq, cellTileId_at hR hC hc, cellRow_at hR hC hc, cellCol_at hc, rowAddr]

/-- Settles O9: the element at a position in the tile grid is a pixel of one tile row, and the element at `k` is by
definition the direct form. -/
theorem rasterDecodeFormula : Obligations.RasterDecodeFormula := by
  refine fun M off => ⟨length_rasterDecode M off, fun A hA C hC R hR c hc => ?_, fun k hk => ?_⟩
  · have hlt : cellIndex A C R c < 14336 := by rw [cellIndex_eq]; omega
    refine ⟨_, (getElem?_rasterDecode M off hlt).trans (congrArg some (rasterPixel_cellIndex M off A hC hR hc)),
      toNat_rowPixel _ _ c, fun t ht => ⟨_, getElem?_tileDecode t hR, ?_⟩⟩
    rw [ht, ht, getElem?_rowDecode _ _ hc, Nat.mul_comm 2 R, Nat.add_assoc _ (R * 2) 1]
  · exact ⟨_, getElem?_rasterDecode M off hk, toNat_rasterPixel M off k⟩

/-- A pixel of the raster depends on two of the 3584 footprint bytes (R74). -/
theorem rasterPixel_congr {M M' : Nat → Byte} {off : Nat} (h : ∀ a, off ≤ a → a < off + 3584 → M a = M' a) {k : Nat}
    (hk : k < 14336) : rasterPixel M off k = rasterPixel M' off k := by
  have hpair := (cellPair_lt_iff k).mpr hk
  rw [rasterPixel_eq, rasterPixel_eq, h _ (by omega) (by omega), h _ (by omega) (by omega)]

/-- Settles O13, pixel by pixel. -/
theorem rasterDependsOnFootprint : Obligations.RasterDependsOnFootprint := fun _ _ _ h =>
  List.map_congr_left fun _ hk => rasterPixel_congr h (List.mem_range.mp hk)

end Sys2Proof.Machine
end

section
/-! PROOFS. The command `DECODE` (R75). -/
namespace Sys2Proof.Machine

open Sys2Proof Sys2Proof.Config

section Decode
variable {s : State} {off : Operand}

theorem exec_decode_of_fault (hst : s.st = .fault) : exec (.decode off) s = .next (s.respond none) := by
  rw [exec, execDecode, hst]

theorem exec_decode_of_busy (hst : s.st = .busy) : exec (.decode off) s = .next (s.raise .busy) := by
  rw [exec, execDecode, hst]

/-- In `IDLE` and `DONE` the bounds check alone decides. -/
theorem exec_decode_of_ready (hst : s.st = .idle ∨ s.st = .done) : exec (.decode off) s =
    if blockFits off s.bufLen then .next (s.acceptDecode off) else .next (s.raise .inputTooShort) := by
  obtain hst | hst := hst <;> rw [exec, execDecode, hst]

theorem exec_decode_of_fits (hst : s.st = .idle ∨ s.st = .done) (hfit : off.toNat + 4096 ≤ s.bufLen.val) :
    exec (.decode off) s = .next (s.acceptDecode off) := by
  rw [exec_decode_of_ready hst, if_pos ((blockFits_iff _ _).mpr hfit)]

theorem exec_decode_of_too_short (hst : s.st = .idle ∨ s.st = .done) (hshort : s.bufLen.val < off.toNat + 4096) :
    exec (.decode off) s = .next (s.raise .inputTooShort) := by
  rw [exec_decode_of_ready hst, if_neg fun hfit => Nat.not_le.mpr hshort ((blockFits_iff _ _).mp hfit)]

end Decode

/-- Settles O15: the word is the operation code above the operand, and `ST` and the bounds check decide the rest. -/
theorem decodeCommand : Obligations.DecodeCommand :=
  ⟨toNat_op_append 1, fun _ _ => exec_decode_of_fault, fun _ _ => exec_decode_of_busy,
    fun _ _ => exec_decode_of_too_short, fun _ _ => exec_decode_of_fits⟩

/-- Settles O18: an ignored or faulting `DECODE` leaves the decode's registers, and an accepted one `FC`. -/
theorem decodeFrame : Obligations.DecodeFrame := by
  intro off s t h
  obtain ⟨hst, e⟩ | ⟨hst, e⟩ | ⟨hst, hfit, e⟩ | ⟨hst, _, e⟩ := execDecode_cases off s <;> cases e.symm.trans h
  · exact ⟨fun _ => rfl, rfl, rfl, rfl, rfl, rfl, rfl, fun _ => ⟨rfl, rfl, rfl⟩, fun _ => rfl⟩
  · exact ⟨fun _ => rfl, rfl, rfl, rfl, rfl, rfl, rfl, fun _ => ⟨rfl, rfl, rfl⟩, by simp [hst]⟩
  · refine ⟨fun _ => rfl, rfl, rfl, rfl, rfl, rfl, rfl, fun hnot => ?_, fun _ => rfl⟩
    obtain hb | hf | hshort := hnot
    · simp [hb] at hst
    · simp [hf] at hst
    · exact absurd hfit (Nat.not_le.mpr hshort)
  · refine ⟨fun _ => rfl, rfl, rfl, rfl, rfl, rfl, rfl, fun _ => ⟨rfl, rfl, rfl⟩, fun hnot => ?_⟩
    obtain hf | hb := hnot
    · simp [hf] at hst
    · cases hb

end Sys2Proof.Machine
end

section
/-! PROOFS. The block step (R76, R77): the state it leads to, its cells, and the invariants it keeps. -/
namespace Sys2Proof.Machine

open Sys2Proof Sys2Proof.Config

/-- The state after the block has decoded the row pair `SCAN` names from the source (R76). -/
def State.afterBlockStep (s : State) : State :=
  s.finishPair s.scan.toNat (s.byteAt (pairAddr s.offset.toNat s.scan.toNat))
    (s.byteAt (pairAddr s.offset.toNat s.scan.toNat + 1))

section BlockStep
variable {s : State}

/-- Inside its buffer the block step answers the state after the row pair: both reads are in range (R44). -/
theorem blockStep_of_fits (hscan : s.scan.toNat < 1792) (hfit : s.offset.toNat + 4096 ≤ s.bufLen.val) :
    blockStep s = .next s.afterBlockStep := by
  have haddr := pairAddr_eq s.offset.toNat s.scan.toNat
  rw [blockStep, if_pos hscan, State.memRead_of_lt (by omega), State.memRead_of_lt (by omega)]
  rfl

theorem afterBlockStep_st (hst : s.st = .busy) :
    s.afterBlockStep.st = if s.scan.toNat + 1 = 1792 then .done else .busy :=
  congrArg (ite _ _) hst

theorem afterBlockStep_scan_toNat (hscan : s.scan.toNat < 1792) : s.afterBlockStep.scan.toNat = s.scan.toNat + 1 :=
  finishPair_scan_toNat hscan _ _

/-- The cells of the row pair get their pixels of `RasterDecode`, every other cell stays. -/
theorem afterBlockStep_cell (s : State) (k : Nat) : s.afterBlockStep.cell k =
    if cellPair k = s.scan.toNat then some (rasterPixel s.byteAt s.offset.toNat k) else s.cell k :=
  storeGet_decodePair _ _ _ _ _

/-- The cell of column `c` of the row pair, in the spec's own arithmetic (R76). -/
theorem afterBlockStep_cell_column (s : State) {c : Nat} (hc : c < 8) :
    s.afterBlockStep.cell (pairCell s.scan.toNat + c) =
      some (rowPixel (s.byteAt (pairAddr s.offset.toNat s.scan.toNat))
        (s.byteAt (pairAddr s.offset.toNat s.scan.toNat + 1)) c) := by
  have hpair := cellPair_pairCell_add s.scan.toNat hc
  have hcol := pairCell_add_cellCol (pairCell s.scan.toNat + c)
  rw [hpair] at hcol
  rw [State.afterBlockStep, finishPair_cell, if_pos hpair, Nat.add_left_cancel hcol]

/-- With no host move left, and in `BUSY`, the step is the block step (R128). -/
theorem step_eq_blockStep (hst : s.st = .busy) (hp : s.pending = []) : step s = blockStep s := by
  rw [step_of_busy hst, busyTransition, hp]

end BlockStep

/-- Settles O26: the block step is `afterBlockStep`, and the cells of row pair `n` are the eight from `pairCell n`. -/
theorem blockStepRowPair : Obligations.BlockStepRowPair := by
  intro s hst hle hfit
  have hlt : s.scan.toNat < 1792 := by omega
  have hstep := blockStep_of_fits hlt hfit
  refine ⟨s.afterBlockStep, hstep, fun hp => (step_eq_blockStep hst hp).trans hstep, afterBlockStep_scan_toNat hlt,
    afterBlockStep_st hst, rfl, rfl, rfl, rfl, rfl, rfl, rfl, rfl,
    fun c hc => ⟨_, afterBlockStep_cell_column s hc, toNat_rowPixel _ _ c⟩, fun k hk => ?_⟩
  have hpair : cellPair k ≠ s.scan.toNat := fun hpair => by
    have hcell := pairCell_add_cellCol k
    rw [hpair] at hcell
    exact hk (cellCol k) (by rw [cellCol_eq]; omega) hcell.symm
  rw [afterBlockStep_cell, if_neg hpair]

/-- Settles O27: the last row pair fills the cells 14328 to 14335, and the step that leads to `SCAN = 1792` is the
block step that leaves `BUSY`. -/
theorem completionStep : Obligations.CompletionStep := by
  refine ⟨fun s hst hlast hfit => ?_, fun s hst hp => ?_, fun s t hinv h ⟨hst, hscan⟩ => ?_⟩
  · have hlt : s.scan.toNat < 1792 := by omega
    have hcells : ∀ k, cellPair k = s.scan.toNat ↔ 14328 ≤ k ∧ k < 14336 := fun k => by
      rw [hlast, ← pairCell_le_iff, pairCell_eq]
    refine ⟨s.afterBlockStep, blockStep_of_fits hlt hfit, ?_, ?_, fun k hlo hhi => ?_, fun k hk => ?_⟩
    · rw [afterBlockStep_scan_toNat hlt, hlast]
    · rw [afterBlockStep_st hst, hlast, if_pos rfl]
    · rw [afterBlockStep_cell, if_pos ((hcells k).mpr (by omega))]
      rfl
    · rw [afterBlockStep_cell, if_neg fun hpair => ?_]
      have hrange := (hcells k).mp hpair
      omega
  · rw [step_of_quiet (by simp [hst]), quietTransition, hp]
  · cases step_regStep h with
    | keep hst' _ hscan' =>
      obtain ⟨hle, _⟩ := hinv.busy (hst'.symm.trans hst)
      rw [← hscan'] at hle
      omega
    | raise hst' | reset _ hst' => rw [hst'] at hst; cases hst
    | accept _ _ _ _ hscan' => rw [hscan'] at hscan; cases hscan
    | block _ _ hst' _ hscan' => rw [hst', if_pos (by omega)] at hst; cases hst

/-- The block step keeps the invariants of R19. -/
theorem Inv.afterBlockStep {s : State} (h : Inv s) (hst : s.st = .busy) : Inv s.afterBlockStep := by
  obtain ⟨hscan, hfit, hcells⟩ := h.busy hst
  have hlt : s.scan.toNat < 1792 := by omega
  have hnext := afterBlockStep_scan_toNat hlt
  have hst' := afterBlockStep_st hst
  have hcells' : ∀ k < NPIX, (s.afterBlockStep.cell k).isSome ↔ cellPair k < s.scan.toNat + 1 := fun k hk => by
    rw [afterBlockStep_cell]
    split_ifs with hpair
    · simp [hpair]
    · rw [hcells k hk]
      omega
  exact {
    memWf := h.memWf
    memInRange := h.memInRange
    rasterWf := writePair_wf h.rasterWf _ _ _
    rasterInRange := writePair_inRange h.rasterInRange hlt _ _
    faultCode := by
      have hfc : s.fc = .noFault := h.faultCode.mpr (by simp [hst])
      refine ⟨fun _ => ?_, fun _ => hfc⟩
      rw [hst']
      split_ifs <;> simp
    idle := fun hidle => by rw [hst'] at hidle; split_ifs at hidle
    busy := fun hbusy => by
      rw [hst'] at hbusy
      rw [hnext]
      split_ifs at hbusy
      exact ⟨by omega, hfit, hcells'⟩
    done := fun hdone => by
      rw [hst'] at hdone
      split_ifs at hdone with hlast
      refine ⟨hnext.trans hlast, hfit, fun k hk => (hcells' k hk).mpr ?_⟩
      rw [hlast]
      exact (cellPair_lt_iff k).mpr hk
    scanBound := by rw [hnext]; exact hlt }

end Sys2Proof.Machine
end

section
/-! PROOFS. The length of a run (R80, R128, R129): every step of a run that has not ended lowers its bound. -/
namespace Sys2Proof.Machine

open Sys2Proof Sys2Proof.Config

section Bound
variable {s t : State} {ms : List HostMove} {ts : List Agent}

theorem stepsLeft_of_busy (hst : s.st = .busy) : s.stepsLeft = 1792 - s.scan.toNat := by
  rw [State.stepsLeft, hst]

theorem stepsLeft_of_not_busy (hst : s.st ≠ .busy) : s.stepsLeft = 0 := by
  rw [State.stepsLeft]
  cases h : s.st with
  | busy => exact absurd h hst
  | idle | done | fault => rfl

/-- Which block steps are left is read from `ST` and `SCAN` alone. -/
theorem stepsLeft_congr (hst : t.st = s.st) (hscan : t.scan = s.scan) : t.stepsLeft = s.stepsLeft := by
  rw [State.stepsLeft, State.stepsLeft, hst, hscan]

/-- A completed row pair is one block step fewer. -/
theorem stepsLeft_finishPair (hst : s.st = .busy) (hlt : s.scan.toNat < 1792) (b0 b1 : Byte) :
    (s.finishPair s.scan.toNat b0 b1).stepsLeft + 1 = s.stepsLeft := by
  have hscan := finishPair_scan_toNat (s := s) hlt b0 b1
  rw [stepsLeft_of_busy hst]
  by_cases hlast : s.scan.toNat + 1 = 1792
  · have hdone : (s.finishPair s.scan.toNat b0 b1).st = .done := if_pos hlast
    rw [stepsLeft_of_not_busy (hdone.trans_ne (by decide))]
    omega
  · have hbusy : (s.finishPair s.scan.toNat b0 b1).st = .busy := (if_neg hlast).trans hst
    rw [stepsLeft_of_busy hbusy, hscan]
    omega

theorem runBound_finishPair (hst : s.st = .busy) (hlt : s.scan.toNat < 1792) (b0 b1 : Byte) :
    (s.finishPair s.scan.toNat b0 b1).runBound + 1 = s.runBound :=
  congrArg (1793 * s.pending.length + s.turns.length + ·) (stepsLeft_finishPair hst hlt b0 b1)

/-- Fewer turns left is no higher bound. -/
theorem runBound_le_of_turns (h : ts.length ≤ s.turns.length) :
    ({ s with turns := ts } : State).runBound ≤ s.runBound :=
  Nat.add_le_add_right (Nat.add_le_add_left h _) _

/-- A block step takes at most a turn off the list. -/
theorem length_le_of_block_turn (h : ts = s.turns ∨ s.turns = .block :: ts) : ts.length ≤ s.turns.length := by
  obtain rfl | h := h
  · exact Nat.le_refl _
  · rw [h]
    exact Nat.le_succ _

/-- A move taken off the list pays for the 1792 steps of the decode it may start. -/
theorem runBound_lt_of_pending {m : HostMove} (hp : s.pending = m :: ms) (hpt : t.pending = ms)
    (ht : t.turns.length ≤ s.turns.length) (hleft : t.stepsLeft ≤ s.stepsLeft + 1792) : t.runBound < s.runBound := by
  rw [State.runBound, State.runBound, hp, hpt, List.length_cons]
  omega

/-- A turn taken off the list pays for a poll that is made again. -/
theorem runBound_lt_of_turns {a : Agent} (hp : t.pending = s.pending) (hts : s.turns = a :: ts) (ht : t.turns = ts)
    (hleft : t.stepsLeft = s.stepsLeft) : t.runBound < s.runBound := by
  rw [State.runBound, State.runBound, hp, hts, ht, hleft, List.length_cons]
  omega

/-- Every host move takes a move off the list, or, a poll that is made again, a turn. -/
theorem HostStep.runBound_lt (h : HostStep s ms ts t) (hbusy : s.st = .busy → s.turns = .host :: ts)
    (hquiet : s.st ≠ .busy → ts = s.turns) : t.runBound < s.runBound := by
  have hturns : ts.length ≤ s.turns.length := by
    by_cases hst : s.st = .busy
    · rw [hbusy hst, List.length_cons]
      omega
    · rw [hquiet hst]
  cases h with
  | respond _ _ hp | write _ _ hp =>
    exact runBound_lt_of_pending hp rfl hturns ((stepsLeft_congr rfl rfl).trans_le (Nat.le_add_right _ _))
  | raise _ _ hp | reset hp =>
    exact runBound_lt_of_pending hp rfl hturns (Nat.zero_le _)
  | accept _ _ hp => exact runBound_lt_of_pending hp rfl hturns (Nat.le_add_left _ _)
  | poll hp =>
    by_cases hst : s.st = .busy
    · exact runBound_lt_of_turns ((if_pos hst).trans hp.symm) (hbusy hst) rfl (stepsLeft_congr rfl rfl)
    · exact runBound_lt_of_pending hp (if_neg hst) hturns
        ((stepsLeft_congr rfl rfl).trans_le (Nat.le_add_right _ _))

/-- Every step of a run that has not ended lowers its bound. -/
theorem runBound_lt_of_step (h : step s = .next t) (hne : ¬ s.ended) : t.runBound < s.runBound := by
  obtain ⟨ts, hst, hts, _, hlt, _, rfl⟩ | ⟨hst, hp, _⟩ | ⟨ms, ts, hbusy, hquiet, hm⟩ := step_cases h
  · have hpair := runBound_finishPair (s := { s with turns := ts }) hst hlt
      (s.byteAt (s.offset.toNat + 2 * s.scan.toNat)) (s.byteAt (s.offset.toNat + 2 * s.scan.toNat + 1))
    exact (Nat.lt_of_succ_le hpair.le).trans_le (runBound_le_of_turns (length_le_of_block_turn hts))
  · exact absurd ⟨hp, hst⟩ hne
  · exact hm.runBound_lt hbusy hquiet

/-- A run that has ended stands still (R113; log 9). -/
theorem step_of_ended (h : s.ended) : step s = .next s := by
  obtain ⟨hp, hst⟩ := h
  rw [step_of_quiet hst, quietTransition, hp]

end Bound

/-- Settles O47: a block step lowers the steps left, and a host move the moves left or the turns. -/
theorem runBoundDecreases : Obligations.RunBoundDecreases :=
  ⟨fun _ _ h hne => runBound_lt_of_step h hne, fun _ => step_of_ended⟩

/-- A property that every step of a run that has not ended carries on holds at the end of the run, which comes within
the run bound. -/
theorem exists_ended_of_step {P : State → Prop} (hstep : ∀ s, P s → ¬ s.ended → ∃ t, step s = .next t ∧ P t) {s : State}
    (hs : P s) : ∃ j ≤ s.runBound, ∃ t, runFor j s = .next t ∧ t.ended ∧ P t := by
  induction hn : s.runBound using Nat.strong_induction_on generalizing s with
  | _ n ih =>
    by_cases hend : s.ended
    · exact ⟨0, Nat.zero_le _, s, runFor_zero s, hend, hs⟩
    · obtain ⟨t, hst, ht⟩ := hstep s hs hend
      have hlt := runBound_lt_of_step hst hend
      obtain ⟨j, hj, u, hrun, hu⟩ := ih t.runBound (hn ▸ hlt) ht rfl
      exact ⟨j + 1, by omega, u, (runFor_next hst).trans hrun, hu⟩

end Sys2Proof.Machine
end

section
/-! PROOFS. The big-step law (R78): the state a decode left alone has reached after `j` block steps, in full. -/
namespace Sys2Proof.Machine

open Sys2Proof Sys2Proof.Config

/-- The state in which a decode that begins in `s` stands after its first `j` row pairs. -/
def State.afterPairs (s : State) (j : Nat) : State :=
  { s with
    raster := (List.range j).foldl (decodePair s.byteAt s.offset.toNat) s.raster
    scan := BitVec.ofNat 11 j
    st := if j = 1792 then .done else .busy }

section AfterPairs
variable {s : State} {j : Nat}

theorem State.afterPairs_raster (s : State) (j : Nat) : (s.afterPairs j).raster =
    (List.range j).foldl (decodePair s.byteAt s.offset.toNat) s.raster := rfl
@[simp] theorem State.afterPairs_offset (s : State) (j : Nat) : (s.afterPairs j).offset = s.offset := rfl
@[simp] theorem State.afterPairs_fc (s : State) (j : Nat) : (s.afterPairs j).fc = s.fc := rfl
@[simp] theorem State.afterPairs_mem (s : State) (j : Nat) : (s.afterPairs j).mem = s.mem := rfl
@[simp] theorem State.afterPairs_unloaded (s : State) (j : Nat) : (s.afterPairs j).unloaded = s.unloaded := rfl

theorem afterPairs_zero (hst : s.st = .busy) (hscan : s.scan = 0) : s.afterPairs 0 = s := by
  cases s
  cases hst
  cases hscan
  rfl

theorem afterPairs_st_of_lt (hj : j < 1792) : (s.afterPairs j).st = .busy := if_neg (Nat.ne_of_lt hj)

theorem afterPairs_st_of_eq (hj : j = 1792) : (s.afterPairs j).st = .done := if_pos hj

theorem afterPairs_scan_toNat (hj : j ≤ 1792) : (s.afterPairs j).scan.toNat = j :=
  (BitVec.toNat_ofNat _ _).trans (Nat.mod_eq_of_lt (by omega))

/-- A block step goes on from the first `j` row pairs to the first `j + 1`. -/
theorem afterBlockStep_afterPairs (hj : j < 1792) : (s.afterPairs j).afterBlockStep = s.afterPairs (j + 1) := by
  have hraster : decodePair s.byteAt s.offset.toNat (s.afterPairs j).raster j = (s.afterPairs (j + 1)).raster := by
    rw [State.afterPairs_raster, State.afterPairs_raster, List.range_succ, List.foldl_append, List.foldl_cons,
      List.foldl_nil]
  rw [State.afterBlockStep, afterPairs_scan_toNat hj.le, State.finishPair, afterPairs_st_of_lt hj]
  exact congrArg (fun raster => { s.afterPairs (j + 1) with raster }) hraster

/-- A decode left alone has decoded its first `j` row pairs after `j` steps. -/
theorem runFor_eq_afterPairs (hst : s.st = .busy) (hscan : s.scan = 0) (hp : s.pending = [])
    (hfit : s.offset.toNat + 4096 ≤ s.bufLen.val) (hj : j ≤ 1792) : runFor j s = .next (s.afterPairs j) := by
  induction j with
  | zero => rw [afterPairs_zero hst hscan, runFor_zero]
  | succ j ih =>
    have hlt : (s.afterPairs j).scan.toNat < 1792 := (afterPairs_scan_toNat (by omega)).trans_lt hj
    have hstep : step (s.afterPairs j) = .next (s.afterPairs (j + 1)) := by
      rw [step_eq_blockStep (afterPairs_st_of_lt hj) hp, blockStep_of_fits hlt hfit, afterBlockStep_afterPairs hj]
    rw [runFor_add 1 (ih (by omega)), runFor_next hstep, runFor_zero]

/-- After all row pairs an empty raster has become the whole of `RasterDecode`: their order is one of those of R79. -/
theorem afterPairs_raster_all (hraster : s.raster = []) : (s.afterPairs 1792).raster =
    (List.range 14336).map fun k => (k, rasterPixel s.byteAt s.offset.toNat k) := by
  rw [State.afterPairs_raster, hraster]
  exact orderIndependence s.byteAt s.offset.toNat _ (List.Perm.refl _)

end AfterPairs

/-- The steps after an accepted `DECODE` with no host move left. -/
theorem runFor_acceptDecode {s : State} {off : Operand} (hfit : off.toNat + 4096 ≤ s.bufLen.val) (hp : s.pending = [])
    {j : Nat} (hj : j ≤ 1792) : runFor j (s.acceptDecode off) = .next ((s.acceptDecode off).afterPairs j) :=
  runFor_eq_afterPairs rfl rfl hp hfit hj

/-- The raster such a decode ends with. -/
theorem acceptDecode_afterPairs_raster (s : State) (off : Operand) : ((s.acceptDecode off).afterPairs 1792).raster =
    (List.range 14336).map fun k => (k, rasterPixel s.byteAt off.toNat k) :=
  afterPairs_raster_all rfl

/-- Settles O28: the decode is accepted, and the state after each of its steps is known in full. -/
theorem bigStep : Obligations.BigStep := by
  intro off s hst hfit hp
  refine ⟨_, exec_decode_of_fits hst hfit,
    fun j hj => ⟨_, runFor_acceptDecode hfit hp hj.le, afterPairs_st_of_lt hj, afterPairs_scan_toNat hj.le⟩,
    _, runFor_acceptDecode hfit hp le_rfl, afterPairs_st_of_eq rfl, State.afterPairs_offset _ _,
    afterPairs_scan_toNat le_rfl, State.afterPairs_fc _ _, State.afterPairs_mem _ _, State.afterPairs_unloaded _ _,
    fun k hk => ⟨rasterPixel s.byteAt off.toNat k, ?_, getElem?_rasterDecode _ _ hk⟩⟩
  rw [State.cell, acceptDecode_afterPairs_raster, storeGet_map, if_pos (List.mem_range.mpr hk)]

/-- Settles O31: the final raster is a list of pixels of `RasterDecode`, which depend on the footprint alone. -/
theorem sameBytesSameRaster : Obligations.SameBytesSameRaster := by
  intro off s s' t t' hst hst' hfit hfit' hp hp' hbytes ht ht'
  cases (exec_decode_of_fits hst hfit).symm.trans ht
  cases (exec_decode_of_fits hst' hfit').symm.trans ht'
  refine ⟨_, _, runFor_acceptDecode hfit hp le_rfl, runFor_acceptDecode hfit' hp' le_rfl, afterPairs_st_of_eq rfl,
    afterPairs_st_of_eq rfl, ?_⟩
  rw [acceptDecode_afterPairs_raster, acceptDecode_afterPairs_raster]
  exact List.map_congr_left fun k hk => by rw [rasterPixel_congr hbytes (List.mem_range.mp hk)]

end Sys2Proof.Machine
end

section
/-! PROOFS. A decode in progress while the host only polls (R78, R80). -/
namespace Sys2Proof.Machine

open Sys2Proof Sys2Proof.Config

/-- The moves with which a host can watch a decode: the poll of `WAIT` and a legal `RDCR` (R63, R91). -/
def HostMove.reads (m : HostMove) : Prop :=
  m = .poll ∨ ∃ n : Operand, n.toNat < 4 ∧ m = .command (encode (.rdcr n))

section Moves
variable {s : State} {m : HostMove}

/-- The word of a legal `RDCR` is answered with the register's value (R91). -/
theorem takeCommand_rdcr {n : Operand} (hn : n.toNat < 4) (s : State) :
    ∃ w, takeCommand (encode (.rdcr n)) s = .next (s.respond (some w)) := by
  rw [takeCommand_of_decodeWord (encodeThenDecode (.rdcr n) (decide_eq_true hn))]
  obtain ⟨_, w, _, e⟩ | ⟨hge, _⟩ := execRdcr_cases n s
  · exact ⟨w, e⟩
  · exact absurd hn hge

/-- A move that reads adds a response, and at most stays the host's next move. -/
theorem takeMove_of_reads (hm : m.reads) (s : State) : ∃ r ms, ms ⊆ m :: s.pending ∧
    takeMove m s = .next { s with responses := r :: s.responses, pending := ms } := by
  obtain rfl | ⟨n, hn, rfl⟩ := hm
  · refine ⟨_, _, ?_, takePoll_eq s⟩
    split_ifs
    · exact List.Subset.refl _
    · exact List.subset_cons_self _ _
  · obtain ⟨w, e⟩ := takeCommand_rdcr hn s
    exact ⟨some w, s.pending, List.subset_cons_self _ _, e⟩

/-- When no block step is next and the run has not ended, the step is the host's next move, its turn taken off or not
(R128). -/
theorem step_of_not_blockNext (hb : ¬ s.blockNext) (hne : ¬ s.ended) :
    ∃ m ms ts, s.pending = m :: ms ∧ step s = takeMove m { s with pending := ms, turns := ts } := by
  cases hp : s.pending with
  | nil => exact absurd ⟨hp, fun hst => hb ⟨hst, .inl hp⟩⟩ hne
  | cons m ms =>
    by_cases hst : s.st = .busy
    · cases ht : s.turns with
      | nil => exact absurd ⟨hst, .inr (.inl ht)⟩ hb
      | cons a ts =>
        cases a with
        | block => exact absurd ⟨hst, .inr (.inr ⟨ts, ht⟩)⟩ hb
        | host => exact ⟨m, ms, ts, rfl, step_of_busy_of_turn hst hp ht⟩
    · exact ⟨m, ms, s.turns, rfl, step_of_quiet_of_pending hst hp⟩

end Moves

/-- The host's moves, turns and responses take no part in the invariants. -/
theorem Inv.of_host {s : State} (h : Inv s) (ms : List HostMove) (ts : List Agent) (rs : List (Option Word)) :
    Inv { s with pending := ms, turns := ts, responses := rs } :=
  ⟨h.memWf, h.memInRange, h.rasterWf, h.rasterInRange, h.faultCode, h.idle, h.busy, h.done, h.scanBound⟩

/-- `s` is reached from `s₀` by a decode that the host only watches: the decode is in progress or done, its source and
`OFFSET` are those of `s₀`, and the host has no other moves left. -/
structure Watched (s₀ s : State) : Prop where
  inv : Inv s
  agrees : RasterAgrees s
  st : s.st = .busy ∨ s.st = .done
  reads : ∀ m ∈ s.pending, m.reads
  offset : s.offset = s₀.offset
  mem : s.mem = s₀.mem
  unloaded : s.unloaded = s₀.unloaded

namespace Watched
variable {s₀ s : State}

/-- The host's turns and responses take no part in it, nor do moves it has made. -/
theorem of_host (h : Watched s₀ s) {ms : List HostMove} (hms : ms ⊆ s.pending) (ts : List Agent)
    (rs : List (Option Word)) : Watched s₀ { s with pending := ms, turns := ts, responses := rs } where
  inv := h.inv.of_host ms ts rs
  agrees := h.agrees.of_kept id rfl rfl rfl rfl
  st := h.st
  reads := fun m hm => h.reads m (hms hm)
  offset := h.offset
  mem := h.mem
  unloaded := h.unloaded

theorem afterBlockStep (h : Watched s₀ s) (hst : s.st = .busy) : Watched s₀ s.afterBlockStep where
  inv := h.inv.afterBlockStep hst
  agrees := by
    rw [State.afterBlockStep, pairAddr_eq]
    exact h.agrees.finishPair hst _
  st := by
    rw [afterBlockStep_st hst]
    split_ifs <;> simp
  reads := h.reads
  offset := h.offset
  mem := h.mem
  unloaded := h.unloaded

/-- Until the run ends there is a next step, the block's or the host's, and the decode goes on being watched. -/
theorem step (h : Watched s₀ s) (hne : ¬ s.ended) : ∃ t, Machine.step s = .next t ∧ Watched s₀ t := by
  by_cases hb : s.blockNext
  · obtain ⟨ts, e⟩ := step_of_blockNext hb
    obtain ⟨hscan, hfit, _⟩ := h.inv.busy hb.1
    have hstep := blockStep_of_fits (s := { s with turns := ts }) (Nat.lt_succ_of_le hscan) hfit
    exact ⟨_, e.trans hstep, (h.of_host (List.Subset.refl _) ts s.responses).afterBlockStep hb.1⟩
  · obtain ⟨m, ms, ts, hp, e⟩ := step_of_not_blockNext hb hne
    obtain ⟨r, ms', hms, hmove⟩ := takeMove_of_reads (h.reads m (by simp [hp])) { s with pending := ms, turns := ts }
    exact ⟨_, e.trans hmove, h.of_host (hp ▸ hms) ts _⟩

/-- At the end of the run the decode is done, and its raster is `RasterDecode` of the source of `s₀`. -/
theorem of_ended (h : Watched s₀ s) (hend : s.ended) : s.st = .done ∧
    ∀ k < 14336, s.cell k = some (rasterPixel s₀.byteAt s₀.offset.toNat k) := by
  have hdone : s.st = .done := h.st.resolve_left hend.2
  have hbytes : s.byteAt = s₀.byteAt := funext (State.byteAt_congr h.mem h.unloaded)
  refine ⟨hdone, fun k hk => ?_⟩
  rw [cell_eq_rasterPixel_of_done h.inv h.agrees hdone hk, hbytes, h.offset]

end Watched

/-- Settles O29: a watched decode takes its next step until the run ends, and there it is done. -/
theorem pollsDoNotDisturbDecode : Obligations.PollsDoNotDisturbDecode := by
  intro s hinv hagree hst hreads
  have hs : Watched s s := ⟨hinv, hagree, .inl hst, hreads, rfl, rfl, rfl⟩
  obtain ⟨j, hj, u, hrun, hend, hu⟩ := exists_ended_of_step (fun _ => Watched.step) hs
  obtain ⟨hdone, hcells⟩ := hu.of_ended hend
  exact ⟨j, hj, u, hrun, hend.1, hdone, hu.offset, hu.mem, hu.unloaded, hcells⟩

end Sys2Proof.Machine
end

section
/-! PROOFS. The read-out commands `RDPIX` (R90) and `RDCR` (R91), and reading the whole raster (R92). -/
namespace Sys2Proof.Machine

open Sys2Proof Sys2Proof.Config

section Rdpix
variable {s t : State} {k : Operand}

theorem exec_rdpix_of_fault (hst : s.st = .fault) : exec (.rdpix k) s = .next (s.respond none) := by
  rw [exec, execRdpix, hst]

theorem exec_rdpix_of_not_ready (hst : s.st = .idle ∨ s.st = .busy) :
    exec (.rdpix k) s = .next (s.raise .notReady) := by
  obtain hst | hst := hst <;> rw [exec, execRdpix, hst]

theorem exec_rdpix_of_bad_index (hst : s.st = .done) (hk : 14336 ≤ k.toNat) :
    exec (.rdpix k) s = .next (s.raise .badIndex) := by
  rw [exec, execRdpix, hst]
  exact if_pos hk

/-- An `RDPIX` that answers a next state writes at most `ST`, `FC` and one response, and on success or in `FAULT` the
response alone (R90). -/
theorem exec_rdpix_eq_next (h : exec (.rdpix k) s = .next t) :
    ∃ st fc r, t = { s with st := st, fc := fc, responses := r :: s.responses } ∧
      (s.st = .done ∧ k.toNat < 14336 ∨ s.st = .fault → st = s.st ∧ fc = s.fc) := by
  obtain ⟨_, e⟩ | ⟨hst, e⟩ | ⟨hst, hk, e⟩ | ⟨_, _, v, _, e⟩ | ⟨_, _, _, e⟩ := execRdpix_cases k s <;>
    cases e.symm.trans h
  · exact ⟨_, _, _, rfl, fun _ => ⟨rfl, rfl⟩⟩
  · exact ⟨_, _, _, rfl, by obtain hst | hst := hst <;> simp [hst]⟩
  · exact ⟨_, _, _, rfl, by simp [hst, Nat.not_lt.mpr hk]⟩
  · exact ⟨_, _, _, rfl, fun _ => ⟨rfl, rfl⟩⟩

end Rdpix

/-- Settles O16: `ST` decides first, then the index, and in `DONE` the invariants give every cell a value. -/
theorem rdpixCommand : Obligations.RdpixCommand := by
  refine ⟨toNat_op_append 2, fun _ _ => exec_rdpix_of_fault, fun _ _ => exec_rdpix_of_not_ready,
    fun _ _ => exec_rdpix_of_bad_index, fun k s hinv hst hk => ?_⟩
  obtain ⟨_, _, hcells⟩ := hinv.done hst
  obtain ⟨v, hv⟩ := Option.isSome_iff_exists.mp (hcells k.toNat hk)
  exact ⟨v, hv, execRdpix_of_cell hst hk hv⟩

/-- Settles O19: the next state differs in `ST`, `FC` and the responses at most. -/
theorem rdpixFrame : Obligations.RdpixFrame := by
  intro k s t h
  obtain ⟨st, fc, r, rfl, hkept⟩ := exec_rdpix_eq_next h
  exact ⟨fun _ => rfl, fun _ => rfl, rfl, rfl, rfl, rfl, rfl, rfl, rfl, rfl, ⟨r, rfl⟩, hkept⟩

section Rdcr
variable {s : State} {n : Operand} {w : Word}

theorem exec_rdcr_of_readCR (h : s.readCR n = some w) : exec (.rdcr n) s = .next (s.respond (some w)) := by
  rw [exec, execRdcr, h]

/-- The number a status word is: its two fields are wide enough for their codes (R14). -/
theorem toNat_statusWord (st : St) (fc : FaultCode) : (statusWord st fc).toNat = fc.code * 16 + st.code := by
  cases st <;> cases fc <;> rfl

/-- The status words of a state in which `FC` holds a fault exactly in `FAULT` (R19 item 1). -/
theorem toNat_statusWord_mem_of_inv (h : Inv s) : (statusWord s.st s.fc).toNat ∈
    [0x00, 0x01, 0x02, 0x13, 0x23, 0x33, 0x43, 0x53] := by
  rw [toNat_statusWord]
  by_cases hst : s.st = .fault
  · have hfc : s.fc ≠ .noFault := fun hfc => h.faultCode.mp hfc hst
    rw [hst]
    cases hc : s.fc with
    | noFault => exact absurd hc hfc
    | inputTooShort | illegalCommand | notReady | badIndex | busy => decide
  · rw [h.faultCode.mpr hst]
    cases hc : s.st with
    | fault => exact absurd hc hst
    | idle | busy | done => decide

/-- A `DECODE` that ends in `FAULT` was not accepted, so it leaves `OFFSET` (R75). -/
theorem exec_decode_offset_of_fault {t : State} {off : Operand} (h : exec (.decode off) s = .next t)
    (ht : t.st = .fault) : t.offset = s.offset := by
  cases exec_taken h with
  | respond | raise => rfl
  | accept => cases ht

end Rdcr

/-- Settles O17: each register is answered as it reads, and 32 bits are wide enough for each. -/
theorem rdcrCommand : Obligations.RdcrCommand := by
  have hoffset (s : State) : (s.offset.setWidth 32).toNat = s.offset.toNat := BitVec.toNat_setWidth_of_le (by decide)
  have hscan (s : State) : (s.scan.setWidth 32).toNat = s.scan.toNat := BitVec.toNat_setWidth_of_le (by decide)
  refine ⟨fun n _ => toNat_op_append 3 n, fun cw hop himm => (decodeWord_error_iff cw).mpr (.inr (.inr ⟨hop, himm⟩)),
    fun s => ⟨_, _, _, _, exec_rdcr_of_readCR s.readCR_zero, hoffset s,
      exec_rdcr_of_readCR s.readCR_one, toNat_statusWord s.st s.fc, exec_rdcr_of_readCR s.readCR_two, hscan s,
      exec_rdcr_of_readCR s.readCR_three, toNat_ofNat_of_lt (s.bufLen.isLt.trans_le (by decide))⟩,
    fun s hinv hst => ⟨_, exec_rdcr_of_readCR s.readCR_two, ?_⟩,
    fun s hinv => ⟨_, exec_rdcr_of_readCR s.readCR_one, toNat_statusWord_mem_of_inv hinv⟩,
    fun s t off _ h ht => ⟨_, exec_rdcr_of_readCR t.readCR_zero, ?_⟩⟩
  · obtain ⟨hle, _⟩ := hinv.busy hst
    exact (hscan s).trans_le hle
  · exact (hoffset t).trans (congrArg _ (exec_decode_offset_of_fault h ht))

/-- Settles O20: each of the four registers has a value, and answering it is the whole of the command. -/
theorem rdcrFrame : Obligations.RdcrFrame := by
  intro n s t hn h
  obtain ⟨w, hw⟩ := readCR_isSome (s := s) hn
  cases (exec_rdcr_of_readCR hw).symm.trans h
  exact ⟨fun _ => rfl, fun _ => rfl, w, rfl⟩

/-! Reading cells one after another (41_readout.md). -/

/-- The host move that reads cell `k`. -/
def readMove (k : Nat) : HostMove := .command (encode (.rdpix (BitVec.ofNat 24 k)))

section Read
variable {s : State}

/-- In `DONE` the move that reads a cell is taken and answered in one step (R90, R128). -/
theorem step_readMove {k : Nat} {v : Pixel} {ms : List HostMove} (hst : s.st = .done) (hk : k < 14336)
    (hv : s.cell k = some v) (hp : s.pending = readMove k :: ms) :
    step s = .next (({ s with pending := ms } : State).respond (some (v.setWidth 32))) := by
  have hnum : (BitVec.ofNat 24 k).toNat = k := toNat_ofNat_of_lt (by omega)
  have hword := encodeThenDecode (.rdpix (BitVec.ofNat 24 k)) rfl
  calc step s
    _ = takeMove (readMove k) { s with pending := ms } := step_of_quiet_of_pending (by simp [hst]) hp
    _ = execRdpix (BitVec.ofNat 24 k) { s with pending := ms } := takeCommand_of_decodeWord hword _
    _ = _ := execRdpix_of_cell hst (hnum.symm ▸ hk) (hnum.symm ▸ hv)

/-- In `DONE` a host whose moves are reads of the cells `ks` gets their values in that order, and nothing else
changes. -/
theorem runFor_readMoves {v : Nat → Pixel} {ks : List Nat} (hst : s.st = .done)
    (hcells : ∀ k ∈ ks, k < 14336 ∧ s.cell k = some (v k)) (hp : s.pending = ks.map readMove) :
    runFor ks.length s = .next
      { s with
        pending := []
        responses := (ks.map fun k => some ((v k).setWidth 32)).reverse ++ s.responses } := by
  induction ks generalizing s with
  | nil =>
    rw [List.map_nil] at hp
    exact congrArg (fun ms => Host.Outcome.next { s with pending := ms }) hp
  | cons k ks ih =>
    obtain ⟨⟨hk, hv⟩, hrest⟩ := List.forall_mem_cons.mp hcells
    have hrun := ih (s := ({ s with pending := ks.map readMove } : State).respond (some ((v k).setWidth 32)))
      hst hrest rfl
    rw [List.length_cons, runFor_next (step_readMove hst hk hv hp), hrun, List.map_cons, List.reverse_cons,
      List.append_assoc]
    rfl

end Read

/-- Settles O36: in `DONE` every cell holds its pixel of `RasterDecode`, and the host reads them all in order. -/
theorem readWholeRaster : Obligations.ReadWholeRaster := by
  intro s hinv hagree hst hp
  have hrun := runFor_readMoves (v := rasterPixel s.byteAt s.offset.toNat) hst
    (fun k hk => ⟨List.mem_range.mp hk, cell_eq_rasterPixel_of_done hinv hagree hst (List.mem_range.mp hk)⟩) hp
  rw [List.length_range] at hrun
  rw [rasterDecode, List.map_map]
  exact hrun

end Sys2Proof.Machine
end

section
/-! PROOFS. The exceptions (60_exceptions.md): the order of the checks, entering `FAULT`, and what is left there until
reset; and the transitions that never stop the machine (R44, R100, R115). -/
namespace Sys2Proof.Machine

open Sys2Proof Sys2Proof.Config

section Commands
variable {s : State}

/-- `FC` holds no fault outside `FAULT` (R19 item 1). -/
theorem Inv.fc_of_not_fault (h : Inv s) (hst : s.st ≠ .fault) : s.fc = .noFault := h.faultCode.mpr hst

/-- In a state that meets the invariants the block step never stops (R44). -/
theorem blockStep_of_inv (h : Inv s) (hst : s.st = .busy) : blockStep s = .next s.afterBlockStep := by
  obtain ⟨hscan, hfit, _⟩ := h.busy hst
  exact blockStep_of_fits (Nat.lt_succ_of_le hscan) hfit

/-- The block step enters no `FAULT` (R100). -/
theorem afterBlockStep_st_ne_fault (hst : s.st = .busy) : s.afterBlockStep.st ≠ .fault := by
  rw [afterBlockStep_st hst]
  split_ifs <;> simp

/-- The checks of `DECODE`, the first that fails deciding (R107): `FAULT`, `BUSY`, the bounds of the block. -/
theorem exec_decode_checks (h : Inv s) (off : Operand) : ∃ t, exec (.decode off) s = .next t ∧
    if s.st = .fault then t = s.respond none
    else if s.st = .busy then t.st = .fault ∧ t.fc = .busy
    else if s.bufLen.val < off.toNat + 4096 then t.st = .fault ∧ t.fc = .inputTooShort
    else t.st ≠ .fault ∧ t.fc = .noFault := by
  obtain ⟨hst, e⟩ | ⟨hst, e⟩ | ⟨hst, hfit, e⟩ | ⟨hst, hshort, e⟩ := execDecode_cases off s <;> refine ⟨_, e, ?_⟩
  · simp [hst]
  · simp [hst]
  · have hfc : s.fc = .noFault := h.fc_of_not_fault (by obtain hst | hst := hst <;> simp [hst])
    obtain hst | hst := hst <;> simp [hst, hfc, Nat.not_lt.mpr hfit]
  · obtain hst | hst := hst <;> simp [hst, hshort]

/-- The checks of `RDPIX`, the first that fails deciding (R107): `FAULT`, no finished decode, the index. -/
theorem exec_rdpix_checks (h : Inv s) (k : Operand) : ∃ t, exec (.rdpix k) s = .next t ∧
    if s.st = .fault then t = s.respond none
    else if s.st = .idle ∨ s.st = .busy then t.st = .fault ∧ t.fc = .notReady
    else if 14336 ≤ k.toNat then t.st = .fault ∧ t.fc = .badIndex
    else t.st ≠ .fault ∧ t.fc = .noFault := by
  obtain ⟨hst, e⟩ | ⟨hst, e⟩ | ⟨hst, hk, e⟩ | ⟨hst, hk, v, _, e⟩ | ⟨hst, hk, hnone, _⟩ := execRdpix_cases k s
  · exact ⟨_, e, by simp [hst]⟩
  · exact ⟨_, e, by obtain hst | hst := hst <;> simp [hst]⟩
  · exact ⟨_, e, by simp [hst, hk]⟩
  · have hfc : s.fc = .noFault := h.fc_of_not_fault (by simp [hst])
    exact ⟨_, e, by simp [hst, hfc, Nat.not_le.mpr hk]⟩
  · obtain ⟨_, _, hcells⟩ := h.done hst
    have hsome := hcells k.toNat hk
    simp [hnone] at hsome

/-- The word of a legal `RDCR` is answered with what the register reads as, in every state (R91). -/
theorem takeCommand_rdcr_eq {n : Operand} (hn : n.toNat < 4) (s : State) : ∃ w, s.readCR n = some w ∧
    takeCommand (encode (.rdcr n)) s = .next (s.respond (some w)) := by
  obtain ⟨w, hw⟩ := readCR_isSome (s := s) hn
  have hword := encodeThenDecode (.rdcr n) (decide_eq_true hn)
  exact ⟨w, hw, (takeCommand_of_decodeWord hword s).trans (exec_rdcr_of_readCR hw)⟩

/-- In `FAULT` a word that is no legal `RDCR` is ignored (R109). -/
theorem takeCommand_of_fault (hst : s.st = .fault) {cw : Word}
    (hcw : ∀ n : Operand, n.toNat < 4 → cw ≠ encode (.rdcr n)) : takeCommand cw s = .next (s.respond none) := by
  cases hd : decodeWord cw with
  | error e => rw [takeCommand_of_illegalWord ((decodeWord_error_iff cw).mp ⟨e, hd⟩), takeIllegal_eq, if_pos hst]
  | ok i =>
    rw [takeCommand_of_decodeWord hd]
    cases i with
    | decode off => exact exec_decode_of_fault hst
    | rdpix k => exact exec_rdpix_of_fault hst
    | rdcr n =>
      obtain ⟨hword, hwf⟩ := decodeWord_eq_ok_iff.mp hd
      exact absurd hword.symm (hcw n (of_decide_eq_true hwf))

end Commands

/-- Settles O21: a word is illegal or the word of one instruction, and the checks of that instruction are made in the
order stated. -/
theorem faultPriority : Obligations.FaultPriority := by
  refine ⟨fun s hinv hst => ⟨_, blockStep_of_inv hinv hst, afterBlockStep_st_ne_fault hst,
    hinv.fc_of_not_fault (by simp [hst])⟩, fun cw s hinv => ?_⟩
  by_cases hill : IllegalWord cw
  · refine ⟨_, takeCommand_of_illegalWord hill s, ?_⟩
    rw [takeIllegal_eq]
    by_cases hst : s.st = .fault
    · rw [if_pos hst, if_pos hst, if_neg fun ⟨_, hlegal⟩ => hlegal hill]
      rfl
    · simp [hst, hill]
  · cases hd : decodeWord cw with
    | error e => exact absurd ((decodeWord_error_iff cw).mp ⟨e, hd⟩) hill
    | ok i =>
      obtain ⟨rfl, hwf⟩ := decodeWord_eq_ok_iff.mp hd
      have hop : (encode i).extractLsb' 24 8 = opcodeOf i := opField_append _ _
      have himm : (encode i).extractLsb' 0 24 = operandOf i := immField_append _ _
      simp only [hill, if_false, not_false_eq_true, and_true, hop, himm]
      cases i with
      | decode off =>
        obtain ⟨t, e, hchecks⟩ := exec_decode_checks hinv off
        refine ⟨t, (takeCommand_of_decodeWord hd s).trans e, ?_⟩
        simpa [opcodeOf, operandOf, State.respond] using hchecks
      | rdpix k =>
        obtain ⟨t, e, hchecks⟩ := exec_rdpix_checks hinv k
        refine ⟨t, (takeCommand_of_decodeWord hd s).trans e, ?_⟩
        simpa [opcodeOf, operandOf, State.respond] using hchecks
      | rdcr n =>
        obtain ⟨w, hw, e⟩ := takeCommand_rdcr_eq (of_decide_eq_true hwf) s
        refine ⟨_, e, ?_⟩
        by_cases hst : s.st = .fault
        · rw [if_pos hst, opcodeOf, if_pos rfl]
          exact ⟨w, hw, rfl⟩
        · simp [hst, opcodeOf, hinv.fc_of_not_fault hst]

/-- In `FAULT` a step that is no reset leaves the block's registers and its raster as they are (R109). -/
theorem step_of_fault {s t : State} (hst : s.st = .fault) (h : step s = .next t) (hr : ¬ s.resetsNext) :
    t.st = .fault ∧ t.fc = s.fc ∧ t.offset = s.offset ∧ t.scan = s.scan ∧ t.raster = s.raster := by
  obtain ⟨ts, hbusy, _⟩ | ⟨_, _, rfl⟩ | ⟨ms, ts, _, _, hm⟩ := step_cases h
  · simp [hst] at hbusy
  · exact ⟨hst, rfl, rfl, rfl, rfl⟩
  · cases hm with
    | respond | write | poll => exact ⟨hst, rfl, rfl, rfl, rfl⟩
    | raise _ _ _ _ hne => exact absurd hst hne
    | accept _ off _ ha =>
      obtain ⟨hready, _⟩ := ha
      simp [hst] at hready
    | reset _ hr' => exact absurd hr' hr

/-- Settles O22: of the ways to take a command, raising a fault alone enters `FAULT`. -/
theorem faultEntry : Obligations.FaultEntry := by
  refine ⟨fun cw s t hst h ht => ?_, fun s t hst h hr => ?_⟩
  · cases takeCommand_taken h with
    | respond r => exact absurd ht hst
    | raise f hf => exact ⟨hf, rfl⟩
    | accept => cases ht
  · obtain ⟨_, _, _, hscan, hraster⟩ := step_of_fault hst h hr
    exact ⟨hscan, hraster⟩

/-- Settles O23: in `FAULT` a legal `RDCR` is answered as ever, and every other word and step leaves the block alone. -/
theorem faultIsSticky : Obligations.FaultIsSticky := fun s hst =>
  ⟨fun _ hn => takeCommand_rdcr_eq hn s, fun _ => takeCommand_of_fault hst, fun _ => step_of_fault hst⟩

/-- Settles O24: a step that is no reset stays in `FAULT`, and a reset made from there is the reset move. -/
theorem onlyResetLeavesFault : Obligations.OnlyResetLeavesFault := by
  refine ⟨fun s t hst h ht => ?_, fun s ms hst hp => ?_⟩
  · by_contra hr
    exact ht (step_of_fault hst h hr).1
  · exact ⟨_, step_of_quiet_of_pending (by simp [hst]) hp, rfl, rfl, State.cell_of_raster_nil rfl⟩

/-- When in `BUSY` no block step is next, the turn is the host's (R128; log 4). -/
theorem turns_of_not_blockNext {s : State} (hb : ¬ s.blockNext) (hst : s.st = .busy) : ∃ ts, s.turns = .host :: ts := by
  cases ht : s.turns with
  | nil => exact absurd ⟨hst, .inr (.inl ht)⟩ hb
  | cons a ts =>
    cases a with
    | block => exact absurd ⟨hst, .inr (.inr ⟨ts, ht⟩)⟩ hb
    | host => exact ⟨ts, rfl⟩

/-- Every host move but a write to `MEM` answers a next state (R100, R115). -/
theorem exists_takeMove_eq_next {s : State} (h : Inv s) {m : HostMove} (hm : ∀ a bytes, m ≠ .write a bytes) :
    ∃ t, takeMove m s = .next t := by
  cases m with
  | command cw =>
    obtain ⟨_, hcommand⟩ := faultPriority
    obtain ⟨t, e, _⟩ := hcommand cw s h
    exact ⟨t, e⟩
  | reset => exact ⟨_, rfl⟩
  | write a bytes => exact absurd rfl (hm a bytes)
  | poll => exact ⟨_, takePoll_eq s⟩

/-- Settles O37: the next transition is a block step, nothing, or a host move that is no write. -/
theorem onlyHostWritesStop : Obligations.OnlyHostWritesStop := by
  intro s hinv hw
  by_cases hb : s.blockNext
  · obtain ⟨ts, e⟩ := step_of_blockNext hb
    exact ⟨_, e.trans (blockStep_of_inv (hinv.of_host s.pending ts s.responses) hb.1)⟩
  by_cases hend : s.ended
  · exact ⟨s, step_of_ended hend⟩
  obtain ⟨m, ms, ts, hp, e⟩ := step_of_not_blockNext hb hend
  have hm : ∀ a bytes, m ≠ .write a bytes := fun a bytes hm =>
    hw ⟨a, bytes, ms, hm ▸ hp, turns_of_not_blockNext hb⟩
  rw [e]
  exact exists_takeMove_eq_next (hinv.of_host ms ts s.responses) hm

end Sys2Proof.Machine
end

section
/-! PROOFS. The interleaving (70_reset_and_hazards.md section 4) and the reset move (section 1). -/
namespace Sys2Proof.Machine

open Sys2Proof Sys2Proof.Config

section Interleaving
variable {s : State} {m : HostMove} {ms : List HostMove} {ts : List Agent}

/-- While `ST = BUSY` the block steps when the turn is its own (R128; log 4). -/
theorem step_of_busy_of_block_turn (hst : s.st = .busy) (hp : s.pending = m :: ms) (ht : s.turns = .block :: ts) :
    step s = blockStep { s with turns := ts } := by
  rw [step_of_busy hst, busyTransition, hp, ht]

/-- While `ST = BUSY` the block steps once the turns are used up: it is never starved (R128; log 4). -/
theorem step_of_busy_of_no_turn (hst : s.st = .busy) (hp : s.pending = m :: ms) (ht : s.turns = []) :
    step s = blockStep s := by
  rw [step_of_busy hst, busyTransition, hp, ht]

/-- While `ST = BUSY` and the next turn, if there is one, is not the host's, the block steps and that turn is over. -/
theorem step_of_busy_of_not_host_turn (hst : s.st = .busy) (hp : s.pending = m :: ms)
    (ht : s.turns.head? ≠ some .host) : step s = blockStep { s with turns := s.turns.tail } := by
  cases hts : s.turns with
  | nil => exact (step_of_busy_of_no_turn hst hp hts).trans (by rw [List.tail_nil, ← hts])
  | cons a ts =>
    cases a with
    | block => exact step_of_busy_of_block_turn hst hp hts
    | host => exact absurd (congrArg List.head? hts) ht

end Interleaving

/-- Settles O45: the transition that is made, case by case. -/
theorem interleaving : Obligations.Interleaving :=
  ⟨fun _ _ _ _ hst hp => ⟨step_of_busy_of_block_turn hst hp, step_of_busy_of_turn hst hp,
      step_of_busy_of_no_turn hst hp⟩,
    fun _ => step_eq_blockStep, fun _ _ _ => step_of_quiet_of_pending, fun _ hst hp => step_of_ended ⟨hp, hst⟩⟩

/-- Settles O42: the reset move is `applyReset`, and the step takes it off the lists. -/
theorem resetMove : Obligations.ResetMove :=
  ⟨fun _ => rfl, fun _ _ => step_of_quiet_of_pending, fun _ _ _ => step_of_busy_of_turn⟩

end Sys2Proof.Machine
end

section
/-! PROOFS. The invariants of R19 at power-up and at reset, and what each transition of a run does to them
(10_state.md sections 5 and 7). -/
namespace Sys2Proof.Machine

open Sys2Proof Sys2Proof.Config

/-- Reset needs of `MEM` alone that it was in order: everything else gets its reset value (R120, R121). -/
theorem inv_applyReset {s : State} (hwf : storeWf s.mem) (hrange : ∀ e ∈ s.mem, e.1 < s.bufLen.val) :
    Inv s.applyReset where
  memWf := hwf
  memInRange := hrange
  rasterWf := List.Pairwise.nil
  rasterInRange := by simp
  faultCode := by simp
  idle := fun _ => ⟨rfl, rfl, storeGet_nil⟩
  busy := by simp
  done := by simp
  scanBound := by simp

/-- Power-up is the reset of a machine with nothing loaded (R121). -/
theorem inv_powerUp (n : BufLen) (u : Nat) : Inv (State.powerUp n u) :=
  inv_applyReset (s := State.powerUp n u) List.Pairwise.nil (by simp)

/-- Settles O32: power-up meets the invariants for every length, the reference length among them. -/
theorem invAtReset : Obligations.InvAtReset := ⟨inv_powerUp, inv_powerUp 131072 0⟩

namespace Inv
variable {s t : State} {ms : List HostMove} {ts : List Agent}

/-- A fault fills in `FC` and keeps the two stores and `SCAN` (R108). -/
theorem raise (h : Inv s) {f : FaultCode} (hf : f ≠ .noFault) : Inv (s.raise f) where
  memWf := h.memWf
  memInRange := h.memInRange
  rasterWf := h.rasterWf
  rasterInRange := h.rasterInRange
  faultCode := by simp [hf]
  idle := by simp
  busy := by simp
  done := by simp
  scanBound := h.scanBound

/-- An accepted decode has its block inside the buffer and no cell written yet (R75). -/
theorem acceptDecode (h : Inv s) (hst : s.st ≠ .fault) {off : Operand} (hfit : off.toNat + 4096 ≤ s.bufLen.val) :
    Inv (s.acceptDecode off) where
  memWf := h.memWf
  memInRange := h.memInRange
  rasterWf := List.Pairwise.nil
  rasterInRange := by simp
  faultCode := by simp [h.fc_of_not_fault hst]
  idle := by simp
  busy := fun _ => ⟨Nat.zero_le _, hfit, fun k _ => by simp [State.cell]⟩
  done := by simp
  scanBound := Nat.zero_le _

/-- A host write inside the buffer keeps `MEM` in its canonical form and in range, and touches nothing else (R43). -/
theorem write (h : Inv s) {a : Nat} {bytes : List Byte} (hr : bytes = [] ∨ a + bytes.length ≤ s.bufLen.val) :
    Inv { s with mem := storeSetFrom s.mem a bytes } :=
  { h with
    memWf := storeSetFrom_wf bytes h.memWf a
    memInRange := storeSetFrom_keys_lt bytes h.memInRange hr }

/-- Every host move keeps the invariants. -/
theorem hostStep (h : Inv s) (hm : HostStep s ms ts t) : Inv t := by
  have hs : Inv { s with pending := ms, turns := ts } := h.of_host ms ts s.responses
  cases hm with
  | respond _ r => exact h.of_host ms ts (r :: s.responses)
  | poll => exact h.of_host _ ts _
  | raise _ _ _ hf => exact hs.raise hf
  | accept _ off _ ha =>
    obtain ⟨hst, hfit, _⟩ := ha
    exact hs.acceptDecode (by obtain hst | hst := hst <;> simp [hst]) hfit
  | reset => exact inv_applyReset h.memWf h.memInRange
  | write _ _ _ _ _ hr => exact hs.write hr

/-- Every step keeps the invariants: the block step, the host's moves, and standing still. -/
theorem step (h : Inv s) (hstep : Machine.step s = .next t) : Inv t := by
  obtain ⟨ts, hst, _, hb, _⟩ | ⟨_, _, rfl⟩ | ⟨ms, ts, _, _, hm⟩ := step_cases hstep
  · have hs : Inv { s with turns := ts } := h.of_host s.pending ts s.responses
    cases (blockStep_of_inv hs hst).symm.trans hb
    exact hs.afterBlockStep hst
  · exact h
  · exact h.hostStep hm

end Inv

end Sys2Proof.Machine
end

section
/-! PROOFS. The end of a run without host writes (70_reset_and_hazards.md section 5, R80, R129). -/
namespace Sys2Proof.Machine

open Sys2Proof

section Pending
variable {s t : State} {ms : List HostMove} {ts : List Agent}

/-- A host move takes itself off the list, or, a poll that is made again, leaves the list as it is. -/
theorem HostStep.pending_subset (h : HostStep s ms ts t) : t.pending ⊆ s.pending := by
  cases h with
  | respond _ _ hp | raise _ _ hp | accept _ _ hp | reset hp | write _ _ hp =>
    exact hp ▸ List.subset_cons_self _ _
  | poll hp =>
    rw [hp]
    show (if s.st = .busy then .poll :: ms else ms) ⊆ HostMove.poll :: ms
    split_ifs
    · exact List.Subset.refl _
    · exact List.subset_cons_self _ _

/-- No step gives the host a new move. -/
theorem step_pending_subset (h : step s = .next t) : t.pending ⊆ s.pending := by
  obtain ⟨ts, _, _, _, _, _, rfl⟩ | ⟨_, _, rfl⟩ | ⟨ms, ts, _, _, hm⟩ := step_cases h
  · exact List.Subset.refl _
  · exact List.Subset.refl _
  · exact hm.pending_subset

end Pending

/-- No write to `MEM` is among the moves the host has still to make. -/
def State.writeFree (s : State) : Prop := ∀ a bytes, HostMove.write a bytes ∉ s.pending

theorem State.writeFree.not_writesNext {s : State} (h : s.writeFree) : ¬ s.writesNext :=
  fun ⟨a, bytes, _, hp, _⟩ => h a bytes (hp ▸ List.mem_cons_self)

theorem State.writeFree.step {s t : State} (h : s.writeFree) (hstep : Machine.step s = .next t) : t.writeFree :=
  fun a bytes hmem => h a bytes (step_pending_subset hstep hmem)

/-- A run without host writes goes on to a next state that is again one (R44, R115). -/
theorem exists_step_of_writeFree {s : State} (hinv : Inv s) (hw : s.writeFree) :
    ∃ t, step s = .next t ∧ Inv t ∧ t.writeFree := by
  obtain ⟨t, hstep⟩ := onlyHostWritesStop s hinv hw.not_writesNext
  exact ⟨t, hstep, hinv.step hstep, hw.step hstep⟩

/-- A run that has ended is not in `BUSY` (R129). -/
theorem State.ended.st_cases {s : State} (h : s.ended) : s.st = .idle ∨ s.st = .done ∨ s.st = .fault := by
  obtain ⟨_, hst⟩ := h
  cases hs : s.st with
  | busy => exact absurd hs hst
  | idle | done | fault => simp

/-- Settles O48: every step there is lowers the run bound, and without host writes there is one until the run ends. -/
theorem everyRunEnds : Obligations.EveryRunEnds := by
  intro s hinv hw
  obtain ⟨j, hj, t, hrun, hend, _⟩ := exists_ended_of_step (P := fun s => Inv s ∧ s.writeFree)
    (fun _ ⟨hinv, hw⟩ _ => exists_step_of_writeFree hinv hw) ⟨hinv, hw⟩
  exact ⟨j, hj, t, hrun, hend, hend.st_cases⟩

end Sys2Proof.Machine
end

section
/-! PROOFS. A command that is not polled for (70_reset_and_hazards.md section 3, R124): how far the decode has got when
the command is taken. -/
namespace Sys2Proof.Machine

open Sys2Proof Sys2Proof.Config

/-- The block step goes on with the decode or finishes it (R76, R77). -/
theorem afterBlockStep_st_busy_or_done {s : State} (hst : s.st = .busy) :
    s.afterBlockStep.st = .busy ∨ s.afterBlockStep.st = .done := by
  rw [afterBlockStep_st hst]
  split_ifs <;> simp

/-- `t` is reached from `s` by `j` block steps: the decode is `j` row pairs further on, `j` turns are over, and the
source, the host's moves and its responses are as they were. -/
structure BlockSteps (s : State) (j : Nat) (t : State) : Prop where
  inv : Inv t
  agrees : RasterAgrees s → RasterAgrees t
  st : t.st = .busy ∨ t.st = .done
  scan : t.scan.toNat = s.scan.toNat + j
  turns : t.turns = s.turns.drop j
  pending : t.pending = s.pending
  responses : t.responses = s.responses
  offset : t.offset = s.offset
  byteAt : t.byteAt = s.byteAt

namespace BlockSteps
variable {s t : State} {j : Nat}

theorem zero (hinv : Inv s) (hst : s.st = .busy) : BlockSteps s 0 s :=
  ⟨hinv, id, .inl hst, rfl, rfl, rfl, rfl, rfl, rfl⟩

/-- The decode is in progress as long as a row pair is left (R76). -/
theorem st_of_lt (h : BlockSteps s j t) (hj : s.scan.toNat + j < 1792) : t.st = .busy := by
  refine h.st.resolve_right fun hdone => ?_
  obtain ⟨hfull, _⟩ := h.inv.done hdone
  exact absurd (h.scan.symm.trans hfull) (Nat.ne_of_lt hj)

/-- The decode is done once no row pair is left (R77). -/
theorem st_of_full (h : BlockSteps s j t) (hj : s.scan.toNat + j = 1792) : t.st = .done := by
  refine h.st.resolve_left fun hbusy => ?_
  obtain ⟨hle, _⟩ := h.inv.busy hbusy
  rw [h.scan, hj] at hle
  exact absurd hle (by decide)

/-- One more block step, its turn taken off. -/
theorem succ (h : BlockSteps s j t) (hj : s.scan.toNat + j < 1792) :
    BlockSteps s (j + 1) ({ t with turns := t.turns.tail } : State).afterBlockStep where
  inv := (h.inv.of_host t.pending _ t.responses).afterBlockStep (h.st_of_lt hj)
  agrees := fun hs => by
    have ht : RasterAgrees { t with turns := t.turns.tail } := (h.agrees hs).of_kept id rfl rfl rfl rfl
    rw [State.afterBlockStep, pairAddr_eq]
    exact ht.finishPair (h.st_of_lt hj) _
  st := afterBlockStep_st_busy_or_done (h.st_of_lt hj)
  scan := (afterBlockStep_scan_toNat (h.scan.trans_lt hj)).trans (congrArg (· + 1) h.scan)
  turns := (congrArg List.tail h.turns).trans List.tail_drop
  pending := h.pending
  responses := h.responses
  offset := h.offset
  byteAt := h.byteAt

/-- When none of the next `j` turns is the host's, the block makes the next `j` transitions. -/
theorem exists_runFor (hinv : Inv s) (hst : s.st = .busy) {m : HostMove} {ms : List HostMove}
    (hp : s.pending = m :: ms) (hts : ∀ i < j, s.turns[i]? ≠ some .host) (hj : s.scan.toNat + j ≤ 1792) :
    ∃ t, runFor j s = .next t ∧ BlockSteps s j t := by
  induction j with
  | zero => exact ⟨s, runFor_zero s, zero hinv hst⟩
  | succ j ih =>
    obtain ⟨t, hrun, h⟩ := ih (fun i hi => hts i (by omega)) (by omega)
    have hbusy : t.st = .busy := h.st_of_lt hj
    have hturn : t.turns.head? ≠ some .host := by
      rw [h.turns, List.head?_drop]
      exact hts j (Nat.lt_succ_self j)
    have hstep := (step_of_busy_of_not_host_turn hbusy (h.pending.trans hp) hturn).trans
      (blockStep_of_inv (h.inv.of_host t.pending _ t.responses) hbusy)
    exact ⟨_, (runFor_add 1 hrun).trans (runFor_next hstep), h.succ hj⟩

end BlockSteps

/-- An `RDPIX` that gets its turn while row pairs are left raises `NotReady` (R124, R103). -/
theorem runFor_rdpix_of_turn {s : State} {k : Operand} {ms : List HostMove} {ts : List Agent} {j : Nat}
    (hinv : Inv s) (hst : s.st = .busy) (hp : s.pending = .command (encode (.rdpix k)) :: ms)
    (hts : s.turns = List.replicate j .block ++ .host :: ts) (hj : s.scan.toNat + j < 1792) :
    ∃ t, BlockSteps s j t ∧
      runFor (j + 1) s = .next (({ t with pending := ms, turns := ts } : State).raise .notReady) := by
  have hblock : ∀ i < j, s.turns[i]? ≠ some .host := fun i hi => by
    rw [hts, List.getElem?_append_left (by simpa using hi), List.getElem?_replicate, if_pos hi]
    simp
  obtain ⟨t, hrun, h⟩ := BlockSteps.exists_runFor hinv hst hp hblock hj.le
  have hturn : t.turns = .host :: ts := by
    rw [h.turns, hts, List.drop_left' List.length_replicate]
  obtain ⟨_, htaken⟩ := stepRunsDecodedInstruction t _ _ ms (h.pending.trans hp) (encodeThenDecode (.rdpix k) rfl)
  have hstep := (htaken ts (h.st_of_lt hj) hturn).trans (exec_rdpix_of_not_ready (.inr (h.st_of_lt hj)))
  exact ⟨t, h, (runFor_add 1 hrun).trans (runFor_next hstep)⟩

/-- An `RDPIX` that gets no turn before the decode is done is answered with its pixel (R124, R38). -/
theorem runFor_rdpix_of_no_turn {s : State} {k : Operand} {ms : List HostMove} (hinv : Inv s)
    (hagree : RasterAgrees s) (hst : s.st = .busy) (hk : k.toNat < 14336)
    (hp : s.pending = .command (encode (.rdpix k)) :: ms) (hts : s.turns = []) :
    ∃ t, BlockSteps s (1792 - s.scan.toNat) t ∧ t.st = .done ∧ runFor (1792 - s.scan.toNat + 1) s = .next
      (({ t with pending := ms } : State).respond
        (some ((rasterPixel s.byteAt s.offset.toNat k.toNat).setWidth 32))) := by
  have hfull : s.scan.toNat + (1792 - s.scan.toNat) = 1792 := Nat.add_sub_of_le hinv.scanBound
  obtain ⟨t, hrun, h⟩ := BlockSteps.exists_runFor hinv hst hp (fun i _ => by simp [hts]) hfull.le
  have hdone := h.st_of_full hfull
  have hcell := cell_eq_rasterPixel_of_done h.inv (h.agrees hagree) hdone hk
  rw [h.byteAt, h.offset] at hcell
  obtain ⟨htaken, _⟩ := stepRunsDecodedInstruction t _ _ ms (h.pending.trans hp) (encodeThenDecode (.rdpix k) rfl)
  have hstep := (htaken (by simp [hdone])).trans
    (execRdpix_of_cell (s := { t with pending := ms }) hdone hk hcell)
  exact ⟨t, h, hdone, (runFor_add 1 hrun).trans (runFor_next hstep)⟩

/-- Settles O46: the schedule says how many block steps come first, and `ST` after them what `RDPIX` answers. -/
theorem rdpixWithoutPolling : Obligations.RdpixWithoutPolling := by
  refine ⟨fun s k ms ts j hinv hst hp hts hj => ?_, fun s k ms hinv hagree hst hk hp hts => ?_⟩
  · obtain ⟨t, h, hrun⟩ := runFor_rdpix_of_turn hinv hst hp hts hj
    exact ⟨_, hrun, rfl, rfl, h.scan, congrArg (none :: ·) h.responses⟩
  · obtain ⟨t, h, hdone, hrun⟩ := runFor_rdpix_of_no_turn hinv hagree hst hk hp hts
    exact ⟨_, hrun, hdone, congrArg (_ :: ·) h.responses⟩

end Sys2Proof.Machine
end

section
/-! PROOFS. The fixed words of 95_test_vectors.md V4 to V6, and the invariants of R19 over a step. -/
namespace Sys2Proof.Machine

/-- Settles O5: each word is an `op` above an `imm`, and the decoder is known on those. -/
theorem vectorWordsDecode : Obligations.VectorWordsDecode :=
  ⟨decodeWord_append 1 0x1F001, decodeWord_append 2 14335, decodeWord_append 3 3, decodeWord_append 3 4,
    decodeWord_append 4 0, decodeWord_append 0 0⟩

/-- Settles O33: `Inv.step` takes the step apart into the block step, standing still and the host's moves. -/
theorem stepKeepsInv : Obligations.StepKeepsInv := fun _ _ h => h.step

end Sys2Proof.Machine
end
